-- ==== Sys2Proof/Word.lean ====
section
/-! DEFINITION. The machine word and the two forms an operand word has. -/

namespace Sys2Proof

/-- A machine word: 64 bits, read as a signed integer through `BitVec.toInt` (spec R22; the
two's-complement representation is spec 93 G1). -/
abbrev Word := BitVec 64

/-- The two addressing modes of an operand word (spec R72 to R75). -/
inductive Operand where
  /-- The operand word was `>= 0`: the address itself (spec R73). -/
  | direct (address : Nat)
  /-- The operand word was `< 0`: the data word `cell` holds the address (spec R74). -/
  | indirect (cell : Nat)
  deriving DecidableEq, Repr

end Sys2Proof
end

