-- ==== Sys2Proof/Syntax.lean ====
section
/-! DEFINITION. The instructions: one constructor for the one row of spec/opcode_table.json. -/

namespace Sys2Proof

/-- The instruction set (spec R71, R155: SUBLEQ is the only instruction). -/
inductive Instr where
  /-- SUBLEQ (spec R143): subtract the value operand `a` names from the word operand `b` names, and
  branch to operand `c` when the result is `<= 0`. -/
  | subleq (a b c : Operand)
  deriving DecidableEq, Repr

end Sys2Proof
end

