-- ==== Sys2Proof/WellFormed.lean ====
section
/-! DEFINITION. Which instructions an encoding exists for. -/

namespace Sys2Proof

/-- An operand some 64-bit word encodes: a direct address is at most `2^63 - 1` (spec R73), a pointer
cell is between `1` and `2^63` (spec R74, R75: address 0 cannot be named as a pointer cell). -/
def Operand.wellFormed : Operand → Bool
  | .direct n => decide (n < 2 ^ 63)
  | .indirect l => decide (1 ≤ l) && decide (l ≤ 2 ^ 63)

/-- All three operands have an encoding (spec R70). -/
def Instr.wellFormed : Instr → Bool
  | .subleq a b c => a.wellFormed && b.wellFormed && c.wellFormed

end Sys2Proof
end

