-- ==== Sys2Proof/Decode.lean ====
section
/-! DEFINITION. The decoder and the encoder (spec R70 to R80), and the host's view of the opcode table. -/

namespace Sys2Proof

/-- Why a sequence of code words is no instruction. No bit pattern is illegal (spec R78), so the only
reason is that fewer than three words are there (spec R70). -/
inductive DecodeError where
  /-- Only `words` words stand where three are needed. -/
  | truncated (words : Nat)
  deriving DecidableEq, Repr

/-- The operand a word is: its sign selects the mode; the pointer cell `-r` is computed exactly, so
`-2^63` names cell `2^63` (spec R72 to R74, R76). -/
def decodeOperand (r : Word) : Operand :=
  if 0 ≤ r.toInt then .direct r.toInt.toNat else .indirect (-r.toInt).toNat

/-- The instruction three code words are (spec R70, R71, R77: every triplet is SUBLEQ). -/
def decodeTriplet (a b c : Word) : Instr :=
  .subleq (decodeOperand a) (decodeOperand b) (decodeOperand c)

/-- The instruction at the head of a sequence of code words, and the words after it. The decoder works on
words because code has no smaller unit and no byte order (spec R51, R58). -/
def decode : List Word → Except DecodeError (Instr × List Word)
  | a :: b :: c :: rest => .ok (decodeTriplet a b c, rest)
  | short => .error (.truncated short.length)

/-- The word of an operand (spec R72 to R74, R80): the address, or the negated pointer cell. -/
def encodeOperand : Operand → Word
  | .direct n => BitVec.ofInt 64 n
  | .indirect l => BitVec.ofInt 64 (-l)

/-- The three code words of an instruction, first word first (spec R70). -/
def encode : Instr → List Word
  | .subleq a b c => [encodeOperand a, encodeOperand b, encodeOperand c]

/-- The three words of an instruction whose bits are `w`, numbered from bit 0 of the first word; bits at or
above `nbits` are 0. -/
def tableWords (nbits w : Nat) : List Word :=
  [BitVec.ofNat 64 (w % 2 ^ nbits),
   BitVec.ofNat 64 (w % 2 ^ nbits / 2 ^ 64),
   BitVec.ofNat 64 (w % 2 ^ nbits / 2 ^ 128)]

/-- What the decoder reads from a row of the opcode table; `none` when the row is said to be longer than
the 192 bits an instruction has (spec R70). -/
def decodeTableWord (nbits w : Nat) : Option Instr :=
  if nbits ≤ 192 then
    match decode (tableWords nbits w) with
    | .ok (i, _) => some i
    | .error _ => none
  else none

end Sys2Proof
end

