-- ==== Sys2Proof/Machine/Flags.lean ====
section
/-! DEFINITION. Word arithmetic and the branch test. The CORE has no flags (spec R32): the test is computed
from the result and used at once. -/

namespace Sys2Proof.Machine

/-- `wrap64` of spec 00 section 4: the word congruent to `v` modulo `2^64`. -/
def wrap64 (v : Int) : Word := BitVec.ofInt 64 v

/-- `wrap64(b - a)`, the subtraction of spec R144; it wraps and never traps (spec R148, D2). -/
def subtract (b a : Word) : Word := wrap64 (b.toInt - a.toInt)

/-- `wrap64(-a)`, the negation of spec R125; it wraps and never traps (spec R148, D2). -/
def negate (a : Word) : Word := wrap64 (-a.toInt)

/-- The branch test `new <= 0` on the stored, wrapped value, signed (spec R145). -/
def branches (new : Word) : Bool := decide (new.toInt ≤ 0)

end Sys2Proof.Machine
end

