-- ==== Sys2Proof/Config.lean ====
section
/-! DEFINITION. What stands outside the machine and is fixed for it: the largest index, and the two host
handlers, whose answers are free values (spec R7, R35 to R38, R132). -/

namespace Sys2Proof

/-- The largest value of DATA_SIZE, CODE_SIZE and pc: `2^63 - 1` (spec R7, R26; D11). -/
def Config.maxIndex : Nat := 9223372036854775807

/-- A handler's error. Its content is opaque (spec R37, N6); the model names it by a number, which nothing
inspects. DESIGN CHOICE, safe: notes/assumptions/3.md. -/
structure HostError where
  tag : Nat
  deriving DecidableEq, Repr, Inhabited

/-- What a call of the input handler comes to (spec R37, R132): the pair the source's contract returns, or
no return at all (it never returns, or ends the host process). -/
inductive InAnswer where
  | returns (value : Word) (error : Option HostError)
  | never
  deriving DecidableEq, Repr, Inhabited

/-- What a call of the output handler comes to (spec R38, R132): the pair `(haltRequested, error)`, or no
return at all. -/
inductive OutAnswer where
  | returns (haltRequested : Bool) (error : Option HostError)
  | never
  deriving DecidableEq, Repr, Inhabited

/-- The response of the input port (spec R37). -/
inductive InResponse where
  | value (v : Word)
  | error (e : HostError)
  deriving DecidableEq, Repr

/-- The response of the output port (spec R38). `proceed` is the spec's `Continue`. -/
inductive OutResponse where
  | proceed
  | halt
  | error (e : HostError)
  deriving DecidableEq, Repr

/-- One port transaction with its response, an entry of the I/O trace (spec R134). -/
inductive Transaction where
  /-- `InReq(addr)` and its response (spec R37). -/
  | input (addr : Nat) (response : InResponse)
  /-- `OutReq(value, addr)` and its response (spec R38). -/
  | output (value : Word) (addr : Nat) (response : OutResponse)
  deriving DecidableEq, Repr

/-- IN_HANDLER (spec R7, R132): the input handler's answer to `InReq(addr)` after the transactions of
`trace`. A FREE VALUE: any answer, so it has no body. notes/assumptions/2.md. -/
opaque Config.inHandler (trace : List Transaction) (addr : Nat) : InAnswer

/-- OUT_HANDLER (spec R7, R132): the output handler's answer to `OutReq(value, addr)` after the
transactions of `trace`. A FREE VALUE: any answer, so it has no body. notes/assumptions/2.md. -/
opaque Config.outHandler (trace : List Transaction) (value : Word) (addr : Nat) : OutAnswer

end Sys2Proof
end

