-- ==== Sys2Proof/Machine/State.lean ====
section
/-! DEFINITION. The state of the CORE as plain data, the reasons a step can stop, and the state at the
start of Run (spec 10_state.md). -/

namespace Sys2Proof.Machine

/-- The data array, sparse: (word address, word) pairs in one canonical form, addresses strictly rising and
no word 0, since an unlisted word reads as 0 (spec R200, D9). The unit is a word, not a byte, because the
machine has none (spec R51, R58). DESIGN CHOICE, safe: notes/assumptions/6.md. -/
abbrev Memory := List (Nat × Word)

/-- A symbol table: name to address, diagnostic only (spec R34). -/
abbrev SymbolTable := List (String × Nat)

/-- The five fault kinds of the CORE (spec R30, R170). -/
inductive FaultKind where
  /-- `pc + 2 >= CODE_SIZE` at the start of a cycle (spec R141, R171). -/
  | outOfCodeRange
  /-- An indirect operand's pointer value is negative (spec R103, R172). -/
  | doubleIndirect
  /-- An indirect A or B operand's pointer value is `>= DATA_SIZE` (spec R104, R173). -/
  | outOfMemoryRange
  /-- A handler answered with an error, carried verbatim (spec R174). -/
  | handlerError (e : HostError)
  /-- A data access outside `[0, DATA_SIZE)` (spec R57, R175; D3, D4). -/
  | dataIndexOutOfRange
  deriving DecidableEq, Repr

/-- The state of the execution loop (spec R28). -/
inductive RunState where
  | running
  | halted
  | failed (kind : FaultKind)
  deriving DecidableEq, Repr

/-- How far the machine's one life has come: Construct, at most one Load, one Run (spec R202, R204).
notes/assumptions/8.md. -/
inductive Stage where
  | constructed
  | loaded
  | started
  deriving DecidableEq, Repr

/-- The whole state (spec R20, R31, R34, R134, R202, R204), with the two lists of settled host answers that
are the model's own (notes/assumptions/2.md). -/
structure State where
  /-- The code array; its length is CODE_SIZE (spec R23, R31). -/
  code : List Word
  /-- The data array (spec R24, R25). -/
  data : Memory
  /-- The program counter, an index into `code` (spec R26). -/
  pc : Nat
  /-- Running, Halted or Failed(kind) (spec R28). -/
  runState : RunState
  /-- No value until the halting cycle (spec R29, D8). -/
  haltValue : Option Word
  /-- IO_SIZE (spec R7, R31). -/
  ioSize : Nat
  /-- DATA_SIZE (spec R7, R31). -/
  dataSize : Nat
  /-- The code symbol table (spec R34). -/
  codeSymbols : SymbolTable
  /-- The data symbol table (spec R34). -/
  dataSymbols : SymbolTable
  /-- The place in the lifecycle (spec R202, R204). -/
  stage : Stage
  /-- MODEL'S OWN: answers of the input handler that are settled, next first; when there is none, the
  answer is the free value `Config.inHandler`. -/
  inAnswers : List InAnswer
  /-- MODEL'S OWN: answers of the output handler that are settled, next first; when there is none, the
  answer is the free value `Config.outHandler`. -/
  outAnswers : List OutAnswer
  /-- The I/O trace so far, oldest first (spec R134). -/
  trace : List Transaction
  deriving DecidableEq, Repr

/-- Why a step has no next state although the machine was running. A fault of the CORE is none of these: it
is a next state whose `runState` is `failed` (spec R177). -/
inductive Fault where
  /-- The input handler never returns from `InReq(addr)`, or ends the host process: the run is stuck and
  reaches no terminal state (spec R132, R187; I1). Raised by the SUBLEQ meaning. Safe. -/
  | inputNeverAnswered (addr : Nat)
  /-- The output handler never returns from `OutReq(value, addr)`, or ends the host process (spec R132,
  R187; I1). Raised by the SUBLEQ meaning. Safe. -/
  | outputNeverAnswered (value : Word) (addr : Nat)
  deriving DecidableEq, Repr

/-- What has no meaning. None of these is a refusal of an instruction: each but the first refuses a command
or a question of the host that the spec refuses. -/
inductive Refusal where
  /-- An instruction without a meaning. No arm of this model answers with it. Safe. -/
  | notModelled (mnemonic : String)
  /-- Construct with sizes that break `0 <= IO_SIZE <= DATA_SIZE <= 2^63 - 1` (spec R35, R200; D10). Raised
  by `construct`. Safe. -/
  | sizesRefused
  /-- Load of a data image longer than `DATA_SIZE - IO_SIZE` (spec R201; D9). Raised by `load`. Safe. -/
  | dataImageTooLong
  /-- Load of a code image longer than `2^63 - 1` words (spec R201; D11). Raised by `load`. Safe. -/
  | codeImageTooLong
  /-- A second Load (spec R202; D22). Raised by `load`. Safe. -/
  | secondLoad
  /-- A Load after Run (spec R202; D22). Raised by `load`. Safe. -/
  | loadAfterRun
  /-- A second Run (spec R204; D14). Raised by `startRun`. Safe. -/
  | secondRun
  /-- A cycle of a machine on which Run was never issued (spec R154, R204). Raised by `step`. Safe:
  notes/assumptions/8.md. -/
  | runNotIssued
  /-- The host asks for `haltValue` where it has no value (spec R29, D8; I4). Raised by `readHaltValue`.
  Safe. -/
  | noHaltValue
  deriving DecidableEq, Repr

/-- The state at the start of Run (spec R40, R203) of a machine constructed with IO_SIZE = 0 and
DATA_SIZE = 2^63 - 1, no load made (D19). The spec gives every value but the two sizes, which are the
host's at construction: DESIGN CHOICE, unsafe: notes/assumptions/1.md. -/
def State.reset : State where
  code := []
  data := []
  pc := 0
  runState := .running
  haltValue := none
  ioSize := 0
  dataSize := Config.maxIndex
  codeSymbols := []
  dataSymbols := []
  stage := .started
  inAnswers := []
  outAnswers := []
  trace := []

end Sys2Proof.Machine
end

