-- ==== Sys2Proof/Machine/Ops.lean ====
section
/-! DEFINITION. The named operations: reading and writing the two arrays, the program counter, fault entry,
halt, recording a port transaction. -/

namespace Sys2Proof.Machine

/-- The word at an address; an unlisted word is 0 (spec R200, D9). -/
def Memory.read : Memory → Nat → Word
  | [], _ => 0#64
  | (k, v) :: m, a => if a = k then v else Memory.read m a

/-- The memory with word `v` at address `a`, in canonical form: writing 0 removes the entry. -/
def Memory.write : Memory → Nat → Word → Memory
  | [], a, v => if v = 0#64 then [] else [(a, v)]
  | (k, w) :: m, a, v =>
    if a < k then (if v = 0#64 then (k, w) :: m else (a, v) :: (k, w) :: m)
    else if a = k then (if v = 0#64 then m else (a, v) :: m)
    else (k, w) :: Memory.write m a v

/-- The words of an image at consecutive addresses from `a` on (spec R201). -/
def Memory.writeImage (m : Memory) (a : Nat) : List Word → Memory
  | [] => m
  | v :: vs => Memory.writeImage (Memory.write m a v) (a + 1) vs

/-- Canonical form with every listed address at `lo` or above: addresses strictly rising, no word 0. -/
def Memory.wfFrom (lo : Nat) : Memory → Bool
  | [] => true
  | (k, v) :: m => decide (lo ≤ k) && decide (v ≠ 0#64) && Memory.wfFrom (k + 1) m

/-- The canonical form: addresses strictly rising, and no entry equal to what an unlisted word reads as. -/
def Memory.wf (m : Memory) : Bool := Memory.wfFrom 0 m

/-- Every listed address lies below `hi`. -/
def Memory.below (hi : Nat) (m : Memory) : Bool := m.all fun e => decide (e.1 < hi)

/-- CODE_SIZE, the length of the code array (spec R31, R40). -/
def State.codeSize (s : State) : Nat := s.code.length

/-- `code[i]`, read only for `i < CODE_SIZE` (spec R52). -/
def State.codeWord (s : State) (i : Nat) : Word := s.code.getD i 0#64

/-- The word data address `a` holds, for `a < DATA_SIZE` (spec R24). -/
def State.dataWord (s : State) (a : Nat) : Word := Memory.read s.data a

/-- `MemRead(a)` with its bound (spec R57; D3, D4). A plain array read: it makes no transaction (spec R55). -/
def State.readData (s : State) (a : Nat) : Except FaultKind Word :=
  if a < s.dataSize then .ok (s.dataWord a) else .error .dataIndexOutOfRange

/-- `data[a] <- v`, used after the bound was checked (spec R144). -/
def State.storeData (s : State) (a : Nat) (v : Word) : State :=
  { s with data := Memory.write s.data a v }

/-- `pc <- t` (spec R147). -/
def State.setPc (s : State) (t : Nat) : State := { s with pc := t }

/-- Fault entry, `raise k` (spec R177): the loop fails with `k`; pc, data and the transactions already made
stay as they are. There is no return from a fault (spec R178). -/
def State.raise (s : State) (k : FaultKind) : State := { s with runState := .failed k }

/-- The halt effect with the value `v` (spec R125): pc and data stay as they are. -/
def State.halt (s : State) (v : Word) : State :=
  { s with haltValue := some v, runState := .halted }

/-- An input transaction was made and answered (spec R121, R134): its settled answer is used up and it is
the newest entry of the trace. -/
def State.recordIn (s : State) (addr : Nat) (r : InResponse) : State :=
  { s with inAnswers := s.inAnswers.tail, trace := s.trace ++ [.input addr r] }

/-- An output transaction was made and answered (spec R124, R134). -/
def State.recordOut (s : State) (v : Word) (addr : Nat) (r : OutResponse) : State :=
  { s with outAnswers := s.outAnswers.tail, trace := s.trace ++ [.output v addr r] }

/-- The fetch check and the fetch (spec R141, R142): `pc + 2` is exact (D6), and no code word is read when
the check fails. -/
def State.fetch (s : State) : Except FaultKind (Word × Word × Word) :=
  if s.codeSize ≤ s.pc + 2 then .error .outOfCodeRange
  else .ok (s.codeWord s.pc, s.codeWord (s.pc + 1), s.codeWord (s.pc + 2))

/-- The numeric code of a fault kind (spec R170; D7). -/
def faultCode : FaultKind → Nat
  | .outOfCodeRange => 1
  | .doubleIndirect => 2
  | .outOfMemoryRange => 3
  | .handlerError _ => 4
  | .dataIndexOutOfRange => 5

end Sys2Proof.Machine
end

