-- ==== Sys2Proof/Machine/Operands.lean ====
section
/-! DEFINITION. The operand resolver (spec 40_operand_resolver.md). -/

namespace Sys2Proof.Machine

/-- The three operand slots (spec R100). -/
inductive Slot where
  | a
  | b
  | c
  deriving DecidableEq, Repr

/-- The resolved operands of one cycle (spec R100, R107). -/
structure Resolved where
  a : Nat
  b : Nat
  c : Nat
  deriving DecidableEq, Repr

/-- The checks on a pointer value: never negative (spec R103), and below DATA_SIZE in slots A and B
(spec R104) but not in slot C (spec R105). -/
def checkPointer (s : State) (slot : Slot) (p : Word) : Except FaultKind Nat :=
  if p.toInt < 0 then .error .doubleIndirect
  else if slot ≠ .c ∧ (s.dataSize : Int) ≤ p.toInt then .error .outOfMemoryRange
  else .ok p.toInt.toNat

/-- The resolver (spec R106): a direct operand is its own address, with no check here (spec R101); an
indirect one is the checked value of its pointer cell, read plainly (spec R102, R55). -/
def resolve (s : State) (slot : Slot) : Operand → Except FaultKind Nat
  | .direct n => .ok n
  | .indirect l =>
    match s.readData l with
    | .error k => .error k
    | .ok p => checkPointer s slot p

/-- All three operands, in the order A, B, C, each from the data as it stands at the start of the cycle; the
first fault ends it (spec R107, R108, R179; D5). -/
def resolveAll (s : State) (x y z : Operand) : Except FaultKind Resolved :=
  match resolve s .a x with
  | .error k => .error k
  | .ok ea =>
    match resolve s .b y with
    | .error k => .error k
    | .ok eb =>
      match resolve s .c z with
      | .error k => .error k
      | .ok ec => .ok { a := ea, b := eb, c := ec }

end Sys2Proof.Machine
end

