-- ==== Sys2Proof/Machine/Ports.lean ====
section
/-! DEFINITION. The I/O interception multiplexer: the source selector and the destination selector, with
the two handler ports (spec 41_io_interception.md). -/

namespace Sys2Proof.Machine

/-- The input handler's answer to the next `InReq(addr)`: the settled one, else the free value (spec R132;
notes/assumptions/2.md). -/
def State.inAnswer (s : State) (addr : Nat) : InAnswer :=
  match s.inAnswers with
  | [] => Config.inHandler s.trace addr
  | r :: _ => r

/-- The output handler's answer to the next `OutReq(v, addr)`: the settled one, else the free value
(spec R132; notes/assumptions/2.md). -/
def State.outAnswer (s : State) (v : Word) (addr : Nat) : OutAnswer :=
  match s.outAnswers with
  | [] => Config.outHandler s.trace v addr
  | r :: _ => r

/-- The response of the input port, if the handler returns: an answer that carries an error is an error
(spec R37, R122). -/
def inResponse : InAnswer → Option InResponse
  | .returns v none => some (.value v)
  | .returns _ (some e) => some (.error e)
  | .never => none

/-- The response of the output port, if the handler returns: an answer that carries an error is an error,
whatever its boolean (spec R38, R127; D20). -/
def outResponse : OutAnswer → Option OutResponse
  | .returns _ (some e) => some (.error e)
  | .returns true none => some .halt
  | .returns false none => some .proceed
  | .never => none

/-- What the source selector comes to. -/
inductive Source where
  /-- `valueA`, and the state after the input transaction, if one was made. -/
  | value (v : Word) (s : State)
  /-- The cycle ends with a fault in this state (spec R177). -/
  | failed (k : FaultKind) (s : State)
  /-- The input handler never returns (spec R132). -/
  | stuck (addr : Nat)

/-- The source selector (spec R120 to R122): below IO_SIZE an input transaction with the resolved address,
else the data word with its bound. -/
def sourceSelect (s : State) (ea : Nat) : Source :=
  if ea < s.ioSize then
    match inResponse (s.inAnswer ea) with
    | none => .stuck ea
    | some (.error e) => .failed (.handlerError e) (s.recordIn ea (.error e))
    | some (.value v) => .value v (s.recordIn ea (.value v))
  else
    match s.readData ea with
    | .error k => .failed k s
    | .ok v => .value v s

/-- The output path (spec R124 to R127): the value goes out as it is; Halt stores its negation and stops the
loop, Continue advances pc by 3 with no write and no branch, Error fails. -/
def outputPath (s : State) (v : Word) (eb : Nat) : Host.Outcome State Fault Refusal :=
  match outResponse (s.outAnswer v eb) with
  | none => .fault (.outputNeverAnswered v eb)
  | some (.error e) => .next ((s.recordOut v eb (.error e)).raise (.handlerError e))
  | some .halt => .next ((s.recordOut v eb .halt).halt (negate v))
  | some .proceed => .next ((s.recordOut v eb .proceed).setPc (s.pc + 3))

/-- The memory path (spec R144, R145): the bound, the wrapped subtraction, the write, and the branch on the
stored value. -/
def memoryPath (s : State) (v : Word) (eb ec : Nat) : Host.Outcome State Fault Refusal :=
  match s.readData eb with
  | .error k => .next (s.raise k)
  | .ok old =>
    .next ((s.storeData eb (subtract old v)).setPc
      (if branches (subtract old v) then ec else s.pc + 3))

/-- The destination selector (spec R123): the output port below IO_SIZE, else memory. -/
def destSelect (s : State) (v : Word) (eb ec : Nat) : Host.Outcome State Fault Refusal :=
  if eb < s.ioSize then outputPath s v eb else memoryPath s v eb ec

end Sys2Proof.Machine
end

