-- ==== Sys2Proof/Machine/Subleq.lean ====
section
/-! DEFINITION. The meaning of SUBLEQ (spec 42_subleq_execute.md). -/

namespace Sys2Proof.Machine

/-- SUBLEQ, steps 3 to 5 of the cycle (spec R140, R143): resolve A, B and C, then the source selector, then
the destination selector. The first check that fails is the fault (spec R179). -/
def execSubleq (x y z : Operand) (s : State) : Host.Outcome State Fault Refusal :=
  match resolveAll s x y z with
  | .error k => .next (s.raise k)
  | .ok ea =>
    match sourceSelect s ea.a with
    | .stuck addr => .fault (.inputNeverAnswered addr)
    | .failed k s1 => .next (s1.raise k)
    | .value v s1 => destSelect s1 v ea.b ea.c

end Sys2Proof.Machine
end

