-- ==== Sys2Proof/Machine/Dispatch.lean ====
section
/-! DEFINITION. The dispatch: one arm per instruction (spec R155: there is one). -/

namespace Sys2Proof.Machine

/-- What an instruction does to the state. -/
def exec (i : Instr) (s : State) : Host.Outcome State Fault Refusal :=
  match i with
  | .subleq a b c => Sys2Proof.Machine.execSubleq a b c s

end Sys2Proof.Machine
end

