-- ==== Sys2Proof/Machine/Step.lean ====
section
/-! DEFINITION. One step: one cycle of the execution loop (spec R140, R154). -/

namespace Sys2Proof.Machine

/-- One cycle while Running (spec R140): the fetch check, the fetch, and the instruction the three words
are. -/
def cycle (s : State) : Host.Outcome State Fault Refusal :=
  match s.fetch with
  | .error k => .next (s.raise k)
  | .ok (a, b, c) => exec (decodeTriplet a b c) s

/-- One step of the loop Run drives (spec R154). Halted and Failed are terminal and nothing leaves them
(spec R28, R178), so there the step changes nothing: DESIGN CHOICE, safe: notes/assumptions/7.md. Before Run
there is no cycle (spec R204): notes/assumptions/8.md. -/
def step (s : State) : Host.Outcome State Fault Refusal :=
  match s.stage with
  | .constructed => .refused .runNotIssued
  | .loaded => .refused .runNotIssued
  | .started =>
    match s.runState with
    | .running => cycle s
    | .halted => .next s
    | .failed _ => .next s

/-- `s` with the instruction whose bits are `w` in the three code words at `pc`, on a machine whose loop is
running, so that the next step runs it. It stands for a load (notes/assumptions/9.md): code before `pc` that
does not exist yet is words of 0. -/
def State.withFetchWord (s : State) (nbits w : Nat) : State :=
  { s with
    code := s.code.take s.pc ++ List.replicate (s.pc - s.code.length) 0 ++ tableWords nbits w
      ++ s.code.drop (s.pc + 3)
    stage := .started
    runState := .running }

end Sys2Proof.Machine
end

