-- ==== Sys2Proof/Machine/Lifecycle.lean ====
section
/-! DEFINITION. The host's commands: Construct, Load, Run, and what the host may observe at the end of a run
(spec R35, R36, R39, R200 to R204). -/

namespace Sys2Proof.Machine

/-- `Construct(IO_SIZE, DATA_SIZE, IN_HANDLER, OUT_HANDLER)` (spec R35, R200): refused unless
`0 <= IO_SIZE <= DATA_SIZE <= 2^63 - 1`; else every data word 0, the code array empty. The handlers come as
the answers of theirs that are settled. The last three fields are the values of spec R40. -/
def construct (ioSize dataSize : Int) (inAnswers : List InAnswer) (outAnswers : List OutAnswer) :
    Host.Outcome State Fault Refusal :=
  if 0 ≤ ioSize ∧ ioSize ≤ dataSize ∧ dataSize ≤ Config.maxIndex then
    .next
      { code := [], data := [], ioSize := ioSize.toNat, dataSize := dataSize.toNat
        codeSymbols := [], dataSymbols := [], stage := .constructed
        inAnswers := inAnswers, outAnswers := outAnswers, trace := []
        pc := 0, runState := .running, haltValue := none }
  else .refused .sizesRefused

/-- `s` with the two images and the symbol tables installed (spec R201): the code image verbatim, the data
image from IO_SIZE upward, every other data word untouched. -/
def State.install (s : State) (codeImage dataImage : List Word) (codeSymbols dataSymbols : SymbolTable) :
    State :=
  { s with
    code := codeImage
    data := Memory.writeImage s.data s.ioSize dataImage
    codeSymbols := codeSymbols
    dataSymbols := dataSymbols
    stage := .loaded }

/-- `Load` (spec R36, R201, R202): at most one, before Run, with images that fit. -/
def load (codeImage dataImage : List Word) (codeSymbols dataSymbols : SymbolTable) (s : State) :
    Host.Outcome State Fault Refusal :=
  match s.stage with
  | .loaded => .refused .secondLoad
  | .started => .refused .loadAfterRun
  | .constructed =>
    if s.dataSize - s.ioSize < dataImage.length then .refused .dataImageTooLong
    else if Config.maxIndex < codeImage.length then .refused .codeImageTooLong
    else .next (s.install codeImage dataImage codeSymbols dataSymbols)

/-- The `Run` command (spec R39, R204): one Run, with or without a load before it (spec R202). The loop it
drives is `step`, again and again. -/
def startRun (s : State) : Host.Outcome State Fault Refusal :=
  match s.stage with
  | .started => .refused .secondRun
  | .constructed => .next { s with stage := .started }
  | .loaded => .next { s with stage := .started }

/-- What a Load takes (spec R36). -/
structure Image where
  code : List Word
  data : List Word
  codeSymbols : SymbolTable
  dataSymbols : SymbolTable
  deriving DecidableEq, Repr

/-- The whole life up to the start of Run: Construct, at most one Load, Run (spec R204). -/
def boot (ioSize dataSize : Int) (inAnswers : List InAnswer) (outAnswers : List OutAnswer)
    (image : Option Image) : Host.Outcome State Fault Refusal :=
  match construct ioSize dataSize inAnswers outAnswers with
  | .fault r => .fault r
  | .refused r => .refused r
  | .next s =>
    match image with
    | none => startRun s
    | some m =>
      match load m.code m.data m.codeSymbols m.dataSymbols s with
      | .fault r => .fault r
      | .refused r => .refused r
      | .next s' => startRun s'

/-- The host reads `haltValue`: in any state but Halted there is none to read (spec R29, D8). -/
def readHaltValue (s : State) : Host.Outcome Word Fault Refusal :=
  match s.runState, s.haltValue with
  | .halted, some v => .next v
  | _, _ => .refused .noHaltValue

/-- How a run ended (spec R187). -/
inductive RunEnd where
  | halted (haltValue : Word)
  | failed (kind : FaultKind)
  deriving DecidableEq, Repr

/-- What a run that ended is observed to have done (spec R39, R134, R187; D18). -/
structure Observation where
  ending : RunEnd
  data : Memory
  pc : Nat
  trace : List Transaction
  deriving DecidableEq, Repr

/-- How the run ended, if it did (spec R187). -/
def State.runEnd (s : State) : Option RunEnd :=
  match s.runState, s.haltValue with
  | .halted, some v => some (.halted v)
  | .failed k, _ => some (.failed k)
  | _, _ => none

/-- The observation of a run that ended (spec R39). -/
def State.observe (s : State) : Option Observation :=
  match s.runEnd with
  | some e => some { ending := e, data := s.data, pc := s.pc, trace := s.trace }
  | none => none

end Sys2Proof.Machine
end

