-- ==== Sys2Proof/Safety.lean ====
section
/-! DEFINITION. The invariant of the machine and what a run is called. -/

namespace Sys2Proof.Machine

/-- What holds of every state of a machine the spec lets exist: the sizes (spec R7), the range of pc
(spec R26), the canonical data array with every listed word in ordinary memory, so that the I/O prefix reads
0 (spec R24, R56), and a halt value in the Halted state and in no other (spec R29). -/
abbrev State.Inv (s : State) : Prop :=
  s.ioSize ≤ s.dataSize ∧ s.dataSize ≤ Config.maxIndex ∧ s.codeSize ≤ Config.maxIndex ∧
  s.pc ≤ Config.maxIndex ∧ Memory.wfFrom s.ioSize s.data = true ∧
  Memory.below s.dataSize s.data = true ∧ (s.runState = .halted ↔ s.haltValue.isSome = true)

/-- Run was issued and the loop runs (spec R140, R154). -/
abbrev State.Runs (s : State) : Prop := s.stage = .started ∧ s.runState = .running

/-- The run of `s` reaches `t` in `k` cycles (spec R154). -/
abbrev State.Reaches (s : State) (k : Nat) (t : State) : Prop := Sys2Proof.core.run k s = .next t

/-- The run ended normally (spec R187: a claim that a program terminates normally must say Halted). -/
abbrev State.EndedNormally (s : State) : Prop := s.runState = .halted

end Sys2Proof.Machine
end

