-- ==== Sys2Proof/Certificates/Slice0/Obligations.lean ====
section
/-! DEFINITION. The statements about the CORE, for the provers: each formalises rules of spec/. -/

open Sys2Proof Sys2Proof.Machine

/-! ### Encoding -/

/-- Decoding the three words of a well-formed instruction, whatever follows them, gives the instruction
back, with every operand at every value an encoding exists for (spec R70 to R75). -/
def Obligations.DecodeEncodeAgree : Prop :=
  ∀ (i : Instr) (rest : List Word), i.wellFormed = true → decode (encode i ++ rest) = .ok (i, rest)

/-- Every 192-bit pattern decodes to SUBLEQ (spec R77), and the decoded instruction is well-formed and encodes
to the pattern's three words (spec R70). That the first word, operand A, is bits 63 to 0 of the pattern, B
bits 127 to 64 and C bits 191 to 128 is the model's numbering, which the spec does not give (log entry
6). -/
def Obligations.EveryPatternDecodesToSubleq : Prop :=
  ∀ w : BitVec 192, ∃ x y z : Operand,
    decodeTableWord 192 w.toNat = some (.subleq x y z) ∧
    (Instr.subleq x y z).wellFormed = true ∧
    encode (.subleq x y z) =
      [w.extractLsb' 0 64, w.extractLsb' 64 64, w.extractLsb' 128 64]

/-- The sign of an operand word, which is its bit 63, selects the mode (spec R72); a direct word is itself
the address, its low 63 bits (spec R73); an indirect word names the cell `-r`, exactly, between 1 and
`2^63` (spec R74). That the sign is bit 63 is the spec's own general knowledge (R72, G1). -/
def Obligations.SignBitSelectsMode : Prop :=
  ∀ r : Word,
    (r.getLsbD 63 = true ↔ r.toInt < 0) ∧
    (0 ≤ r.toInt → ∃ n : Nat, decodeOperand r = .direct n ∧ (n : Int) = r.toInt ∧
      n = (r.extractLsb' 0 63).toNat) ∧
    (r.toInt < 0 → ∃ l : Nat, decodeOperand r = .indirect l ∧ (l : Int) = -r.toInt ∧
      1 ≤ l ∧ l ≤ 2 ^ 63)

/-- Words the spec writes out decode to the instructions it writes beside them: V-S1, V-S3, program 4 and
the corner word of R76. -/
def Obligations.SpecWordsDecode : Prop :=
  decode [0xFFFFFFFFFFFFFFFF#64, 0x1#64, 0x6#64] =
    .ok (.subleq (.indirect 1) (.direct 1) (.direct 6), []) ∧
  decode [0xFFFFFFFFFFFFFFFD#64, 0x4#64, 0x0#64] =
    .ok (.subleq (.indirect 3) (.direct 4) (.direct 0), []) ∧
  decode [0x1#64, 0x1#64, 0xFFFFFFFFFFFFFFFE#64] =
    .ok (.subleq (.direct 1) (.direct 1) (.indirect 2), []) ∧
  decodeOperand 0x8000000000000000#64 = .indirect 9223372036854775808

/-! ### The cycle -/

/-- A STEP RUNS THE DECODED INSTRUCTION: while the loop runs, when the words at pc decode to a well-formed
instruction, the step is that instruction's meaning at that state, and nothing around it. -/
def Obligations.StepRunsDecodedInstruction : Prop :=
  ∀ (s : State) (i : Instr) (rest : List Word), s.Runs → i.wellFormed = true →
    decode (s.code.drop s.pc) = .ok (i, rest) → step s = exec i s

/-- The fetch check and the fetch (spec R141, R142): with `pc + 2 >= CODE_SIZE`, exactly (D6), the cycle raises
OutOfCodeRange and changes nothing else; otherwise it reads the three words at pc, pc + 1 and pc + 2, and
what runs is the instruction they are. -/
def Obligations.FetchCheckThenFetch : Prop :=
  ∀ s : State, s.Runs →
    (s.codeSize ≤ s.pc + 2 → step s = .next { s with runState := .failed .outOfCodeRange }) ∧
    (s.pc + 2 < s.codeSize → ∃ a b c : Word,
      s.code[s.pc]? = some a ∧ s.code[s.pc + 1]? = some b ∧ s.code[s.pc + 2]? = some c ∧
      step s = exec (decodeTriplet a b c) s)

/-- The word an instruction of the opcode table is placed as is the instruction the very next step runs, in
every state. -/
def Obligations.PlacedWordRuns : Prop :=
  ∀ (s : State) (nbits w : Nat) (i : Instr), decodeTableWord nbits w = some i →
    step (s.withFetchWord nbits w) = exec i (s.withFetchWord nbits w)

/-- Halted and Failed are terminal (spec R28, R178): however many steps follow, the state stays as it is.
That a step of an ended run is a step that changes nothing is the model's choice (log entry 7). -/
def Obligations.EndedRunsStay : Prop :=
  ∀ (s : State) (k : Nat), s.stage = .started → s.runState ≠ .running → s.Reaches k s

/-! ### The operand resolver -/

/-- The whole resolver, on raw operand words (spec R106, with the checks of R101 to R105 in their order; D4). -/
def Obligations.ResolverFollowsTheRules : Prop :=
  ∀ (s : State) (slot : Slot) (r : Word),
    (0 ≤ r.toInt → resolve s slot (decodeOperand r) = .ok r.toInt.toNat) ∧
    (r.toInt < 0 → (s.dataSize : Int) ≤ -r.toInt →
      resolve s slot (decodeOperand r) = .error .dataIndexOutOfRange) ∧
    (∀ l : Nat, (l : Int) = -r.toInt → 0 < l → l < s.dataSize →
      ((s.dataWord l).toInt < 0 → resolve s slot (decodeOperand r) = .error .doubleIndirect) ∧
      (slot ≠ .c → (s.dataSize : Int) ≤ (s.dataWord l).toInt →
        resolve s slot (decodeOperand r) = .error .outOfMemoryRange) ∧
      (0 ≤ (s.dataWord l).toInt → (slot = .c ∨ (s.dataWord l).toInt < s.dataSize) →
        resolve s slot (decodeOperand r) = .ok (s.dataWord l).toInt.toNat))

/-- The indirection property (spec R109): a pointer cell that holds `V` with `0 <= V < DATA_SIZE` resolves,
in every slot, exactly as the direct operand `V` does; in slot C for every `V >= 0`. -/
def Obligations.IndirectionProperty : Prop :=
  ∀ (s : State) (slot : Slot) (l : Nat), s.dataSize ≤ Config.maxIndex → 1 ≤ l → l < s.dataSize →
    0 ≤ (s.dataWord l).toInt → (slot = .c ∨ (s.dataWord l).toInt < s.dataSize) →
    resolve s slot (decodeOperand (BitVec.ofInt 64 (-l))) =
      resolve s slot (decodeOperand (s.dataWord l)) ∧
    resolve s slot (decodeOperand (BitVec.ofInt 64 (-l))) = .ok (s.dataWord l).toInt.toNat

/-- Double indirection is never followed and never ignored (spec R110): a negative pointer value in a slot
ends the cycle with DoubleIndirectError, unless the resolution of an earlier slot has failed. -/
def Obligations.DoubleIndirectionAlwaysFails : Prop :=
  ∀ (s : State) (x y z : Operand) (l : Nat), l < s.dataSize → (s.dataWord l).toInt < 0 →
    exec (.subleq (.indirect l) y z) s = .next (s.raise .doubleIndirect) ∧
    (∀ ea, resolve s .a x = .ok ea →
      exec (.subleq x (.indirect l) z) s = .next (s.raise .doubleIndirect)) ∧
    (∀ ea eb, resolve s .a x = .ok ea → resolve s .b y = .ok eb →
      exec (.subleq x y (.indirect l)) s = .next (s.raise .doubleIndirect))

/-- The word `-2^63` is an indirect operand with `L = 2^63`, and resolving it raises DataIndexOutOfRange in
every slot of every machine (spec R76, derived there from R74 and R102). -/
def Obligations.LeastWordNeverResolves : Prop :=
  decodeOperand 0x8000000000000000#64 = .indirect (2 ^ 63) ∧
  ∀ (s : State) (slot : Slot), s.dataSize ≤ Config.maxIndex →
    resolve s slot (decodeOperand 0x8000000000000000#64) = .error .dataIndexOutOfRange

/-- The I/O prefix's backing words (spec R56, derived there from R40, R54 and R55): 0 at the start of Run, 0 in every state that meets the
invariant, 0 again after any step, and so an indirect operand `-L` with `1 <= L < IO_SIZE` resolves to
address 0 in every slot. -/
def Obligations.PrefixPointersResolveToZero : Prop :=
  (∀ (io ds : Int) (ins : List InAnswer) (outs : List OutAnswer) (image : Option Image) (s : State),
    boot io ds ins outs image = .next s → ∀ a, a < s.ioSize → s.dataWord a = 0) ∧
  (∀ s : State, s.Inv →
    (∀ a, a < s.ioSize → s.dataWord a = 0) ∧
    (∀ t, step s = .next t → ∀ a, a < s.ioSize → t.dataWord a = 0) ∧
    (∀ (slot : Slot) (l : Nat), 1 ≤ l → l < s.ioSize → resolve s slot (.indirect l) = .ok 0))

/-- Every cycle that passes the fetch check resolves A, then B, then C, all before anything else (spec R107,
R179; D5), and the first of them that fails is the fault: no transaction and no write is made. -/
def Obligations.ResolutionFaultsInOrder : Prop :=
  ∀ (s : State) (x y z : Operand) (k : FaultKind),
    (resolve s .a x = .error k →
      exec (.subleq x y z) s = .next { s with runState := .failed k }) ∧
    (∀ ea, resolve s .a x = .ok ea → resolve s .b y = .error k →
      exec (.subleq x y z) s = .next { s with runState := .failed k }) ∧
    (∀ ea eb, resolve s .a x = .ok ea → resolve s .b y = .ok eb → resolve s .c z = .error k →
      exec (.subleq x y z) s = .next { s with runState := .failed k })

/-- A fault in C always ends the cycle (spec R152, derived there from R140): when B is an I/O address, when the branch would not be
taken, and before any input transaction. Its kind is DoubleIndirectError or DataIndexOutOfRange. -/
def Obligations.FaultInCEndsTheCycle : Prop :=
  ∀ (s : State) (x y z : Operand) (ea eb : Nat) (k : FaultKind),
    resolve s .a x = .ok ea → resolve s .b y = .ok eb → resolve s .c z = .error k →
    (k = .doubleIndirect ∨ k = .dataIndexOutOfRange) ∧
    exec (.subleq x y z) s = .next { s with runState := .failed k }

/-! ### The two selectors -/

/-- The source selector (spec R120, R122, on the answers of R37). Below IO_SIZE an input transaction with the
resolved operand is made: an answer with no error gives its value to the destination selector, and an answer
with an error ends the cycle with no output transaction, no write and pc unchanged. At or above IO_SIZE no
transaction is made: the data word is the value, and an address `>= DATA_SIZE` raises DataIndexOutOfRange
(D3). That the error wins whatever value stands beside it is the model's inference (log entry 12), and that
the answer is used up is its own form of the handlers (log entry 2). -/
def Obligations.SourceSelectorRule : Prop :=
  ∀ (s : State) (x y z : Operand) (ea : Resolved), resolveAll s x y z = .ok ea →
    (ea.a < s.ioSize → ∀ v, s.inAnswer ea.a = .returns v none →
      ∃ s1, s1 = { s with inAnswers := s.inAnswers.tail, trace := s.trace ++ [.input ea.a (.value v)] } ∧
        sourceSelect s ea.a = .value v s1 ∧
        exec (.subleq x y z) s = destSelect s1 v ea.b ea.c) ∧
    (ea.a < s.ioSize → ∀ v e, s.inAnswer ea.a = .returns v (some e) →
      exec (.subleq x y z) s = .next
        { s with runState := .failed (.handlerError e), inAnswers := s.inAnswers.tail,
                 trace := s.trace ++ [.input ea.a (.error e)] }) ∧
    (s.ioSize ≤ ea.a → ea.a < s.dataSize →
      sourceSelect s ea.a = .value (s.dataWord ea.a) s ∧
      exec (.subleq x y z) s = destSelect s (s.dataWord ea.a) ea.b ea.c) ∧
    (s.ioSize ≤ ea.a → s.dataSize ≤ ea.a →
      exec (.subleq x y z) s = .next { s with runState := .failed .dataIndexOutOfRange })

/-- The memory path with operand A in memory (spec R144, R145; D2): SUBLEQ COMPLETES. The word at the resolved B
becomes the wrapped difference, every other data word stays, pc goes to the resolved C exactly when the
stored value is `<= 0` and else advances by 3, and nothing else of the state changes. -/
def Obligations.SubleqInMemoryCompletes : Prop :=
  ∀ (s : State) (x y z : Operand) (ea : Resolved), s.Inv → resolveAll s x y z = .ok ea →
    s.ioSize ≤ ea.a → ea.a < s.dataSize → s.ioSize ≤ ea.b → ea.b < s.dataSize →
    ∃ t, exec (.subleq x y z) s = .next t ∧
      (∀ i, t.dataWord i =
        if i = ea.b then wrap64 ((s.dataWord ea.b).toInt - (s.dataWord ea.a).toInt)
        else s.dataWord i) ∧
      t.pc = (if (t.dataWord ea.b).toInt ≤ 0 then ea.c else s.pc + 3) ∧
      t = { s with data := t.data, pc := t.pc }

/-- The memory path (spec R144, R145; D2, D3), wherever operand A's value `v` came from: the bound on the resolved B
first, which faults after any input transaction; else the wrapped difference is stored, every other data word
stays, and the stored value, signed, decides between the resolved C and `pc + 3`. -/
def Obligations.MemoryPathRule : Prop :=
  ∀ (s s1 : State) (x y z : Operand) (ea : Resolved) (v : Word), s.Inv →
    resolveAll s x y z = .ok ea → sourceSelect s ea.a = .value v s1 → s.ioSize ≤ ea.b →
    (s.dataSize ≤ ea.b →
      exec (.subleq x y z) s = .next { s1 with runState := .failed .dataIndexOutOfRange }) ∧
    (ea.b < s.dataSize → ∃ t, exec (.subleq x y z) s = .next t ∧
      (∀ i, t.dataWord i =
        if i = ea.b then wrap64 ((s.dataWord ea.b).toInt - v.toInt) else s.dataWord i) ∧
      t.pc = (if (t.dataWord ea.b).toInt ≤ 0 then ea.c else s.pc + 3) ∧
      t = { s1 with data := t.data, pc := t.pc })

/-- Continue (spec R126), which is the answer `haltRequested = false` with no error (spec R38), wherever operand
A's value `v` came from and whatever it is: SUBLEQ completes with `v` sent as it is, no data word written, no
branch, and pc advanced by exactly 3. -/
def Obligations.OutputContinueAdvancesByThree : Prop :=
  ∀ (s s1 : State) (x y z : Operand) (ea : Resolved) (v : Word), resolveAll s x y z = .ok ea →
    sourceSelect s ea.a = .value v s1 → ea.b < s.ioSize →
    s1.outAnswer v ea.b = .returns false none →
    exec (.subleq x y z) s = .next
      { s with pc := s.pc + 3, inAnswers := s1.inAnswers, outAnswers := s1.outAnswers.tail,
               trace := s1.trace ++ [.output v ea.b .proceed] }

/-- Halt (spec R125), which is the answer `haltRequested = true` with no error (spec R38), at any I/O address
where the host answers it and wherever operand A's value `v` came from: `haltValue` becomes the wrapped
negation of `v` (D2) and the loop is Halted; pc and data are not written. The spec's loop makes no further
cycle; that a step which follows is one that changes nothing is the model's choice (log entry 7). -/
def Obligations.OutputHaltStopsTheLoop : Prop :=
  ∀ (s s1 : State) (x y z : Operand) (ea : Resolved) (v : Word), resolveAll s x y z = .ok ea →
    sourceSelect s ea.a = .value v s1 → ea.b < s.ioSize →
    s1.outAnswer v ea.b = .returns true none →
    ∃ t, exec (.subleq x y z) s = .next t ∧
      t = { s with runState := .halted, haltValue := some (wrap64 (-v.toInt)),
                   inAnswers := s1.inAnswers, outAnswers := s1.outAnswers.tail,
                   trace := s1.trace ++ [.output v ea.b .halt] } ∧
      (s.stage = .started → ∀ k, t.Reaches k t)

/-- Error (spec R127; D20), wherever operand A's value `v` came from: an output answer that carries an error,
with or without a halt request, fails the run with that error verbatim; pc and data are unchanged. -/
def Obligations.OutputErrorFailsTheRun : Prop :=
  ∀ (s s1 : State) (x y z : Operand) (ea : Resolved) (v : Word) (haltRequested : Bool) (e : HostError),
    resolveAll s x y z = .ok ea → sourceSelect s ea.a = .value v s1 → ea.b < s.ioSize →
    s1.outAnswer v ea.b = .returns haltRequested (some e) →
    exec (.subleq x y z) s = .next
      { s with runState := .failed (.handlerError e), inAnswers := s1.inAnswers,
               outAnswers := s1.outAnswers.tail, trace := s1.trace ++ [.output v ea.b (.error e)] }

/-- Both A and B in the I/O region (spec R151, derived there from R140 and R128): the input transaction comes
first and its value goes out unchanged; no data word is touched; Continue (`haltRequested = false`, no error:
spec R38) advances pc by 3, Halt (`haltRequested = true`, no error) stores the wrapped negation. -/
def Obligations.InputThenOutput : Prop :=
  ∀ (s s1 : State) (x y z : Operand) (ea : Resolved) (v : Word), resolveAll s x y z = .ok ea →
    ea.a < s.ioSize → ea.b < s.ioSize → s.inAnswer ea.a = .returns v none →
    s1 = { s with inAnswers := s.inAnswers.tail, trace := s.trace ++ [.input ea.a (.value v)] } →
    (s1.outAnswer v ea.b = .returns false none →
      exec (.subleq x y z) s = .next
        { s with pc := s.pc + 3, inAnswers := s.inAnswers.tail, outAnswers := s.outAnswers.tail,
                 trace := s.trace ++ [.input ea.a (.value v), .output v ea.b .proceed] }) ∧
    (s1.outAnswer v ea.b = .returns true none →
      exec (.subleq x y z) s = .next
        { s with runState := .halted, haltValue := some (wrap64 (-v.toInt)),
                 inAnswers := s.inAnswers.tail, outAnswers := s.outAnswers.tail,
                 trace := s.trace ++ [.input ea.a (.value v), .output v ea.b .halt] })

/-- The bound on a resolved A or B that is no data address is checked at its access and not before (spec
R57, R101, R144; D3): A's before any write or output, B's after the input transaction, which stays in the
trace. -/
def Obligations.BoundsAreCheckedAtTheAccess : Prop :=
  ∀ (s : State) (x y z : Operand) (ea : Resolved), s.Inv → resolveAll s x y z = .ok ea →
    (s.dataSize ≤ ea.a →
      exec (.subleq x y z) s = .next { s with runState := .failed .dataIndexOutOfRange }) ∧
    (ea.a < s.dataSize → s.ioSize ≤ ea.a → s.dataSize ≤ ea.b →
      exec (.subleq x y z) s = .next { s with runState := .failed .dataIndexOutOfRange }) ∧
    (ea.a < s.ioSize → s.dataSize ≤ ea.b → ∀ v, s.inAnswer ea.a = .returns v none →
      exec (.subleq x y z) s = .next
        { s with runState := .failed .dataIndexOutOfRange, inAnswers := s.inAnswers.tail,
                 trace := s.trace ++ [.input ea.a (.value v)] })

/-! ### Corner cases of SUBLEQ -/

/-- Same location for A and B (spec R149, derived there from R144 and R145): in ordinary memory the word is cleared and the branch is taken,
whatever the word held; in the I/O region there is one input transaction, then one output transaction that
carries its value. -/
def Obligations.SameLocationClearsAndBranches : Prop :=
  ∀ (s : State) (x y z : Operand) (ea : Resolved), s.Inv → resolveAll s x y z = .ok ea → ea.a = ea.b →
    (s.ioSize ≤ ea.a → ea.a < s.dataSize →
      ∃ t, exec (.subleq x y z) s = .next t ∧ t.dataWord ea.a = 0 ∧ t.pc = ea.c ∧
        t = { s with data := t.data, pc := t.pc }) ∧
    (ea.a < s.ioSize → ∀ v t, s.inAnswer ea.a = .returns v none →
      exec (.subleq x y z) s = .next t →
      ∃ r, t.trace = s.trace ++ [.input ea.a (.value v), .output v ea.a r])

/-- B writes the pointer cell of A, B or C (spec R150, derived there from R140 and R107): all three were resolved from the old pointer value,
so a taken branch goes to the old one; the new value is what the next cycle's resolution finds. -/
def Obligations.PointerWriteActsFromTheNextCycle : Prop :=
  ∀ (s : State) (x y z : Operand) (ea : Resolved), s.Inv → resolveAll s x y z = .ok ea →
    s.ioSize ≤ ea.a → ea.a < s.dataSize → s.ioSize ≤ ea.b → ea.b < s.dataSize →
    ∃ t, exec (.subleq x y z) s = .next t ∧
      t.dataWord ea.b = wrap64 ((s.dataWord ea.b).toInt - (s.dataWord ea.a).toInt) ∧
      (x = .indirect ea.b → (ea.a : Int) = (s.dataWord ea.b).toInt) ∧
      (y = .indirect ea.b → (ea.b : Int) = (s.dataWord ea.b).toInt) ∧
      (z = .indirect ea.b → (t.dataWord ea.b).toInt ≤ 0 → (t.pc : Int) = (s.dataWord ea.b).toInt) ∧
      (∀ slot, resolve t slot (.indirect ea.b) = checkPointer t slot (t.dataWord ea.b))

/-- The idioms of spec R82, for `X` and `Z` in ordinary memory and `1 <= k < IO_SIZE`: jmp, clr, out, halt,
in and echo have the effects its table gives. -/
def Obligations.SubleqIdioms : Prop :=
  ∀ (s : State) (x k : Nat), s.Inv → s.ioSize ≤ x → x < s.dataSize →
    (∀ dest, s.dataWord x = 0 →
      ∃ t, exec (.subleq (.direct x) (.direct x) (.direct dest)) s = .next t ∧ t.pc = dest ∧
        ∀ i, t.dataWord i = s.dataWord i) ∧
    (∃ t, exec (.subleq (.direct x) (.direct x) (.direct (s.pc + 3))) s = .next t ∧
      t.pc = s.pc + 3 ∧ ∀ i, t.dataWord i = if i = x then 0 else s.dataWord i) ∧
    (1 ≤ k → k < s.ioSize → s.outAnswer (s.dataWord x) k = .returns false none →
      ∃ t, exec (.subleq (.direct x) (.direct k) (.direct (s.pc + 3))) s = .next t ∧
        t.pc = s.pc + 3 ∧ t.data = s.data ∧ t.trace = s.trace ++ [.output (s.dataWord x) k .proceed]) ∧
    (∀ z c, 1 ≤ s.ioSize → resolve s .c z = .ok c →
      s.outAnswer (s.dataWord x) 0 = .returns true none →
      ∃ t, exec (.subleq (.direct x) (.direct 0) z) s = .next t ∧ t.runState = .halted ∧
        t.haltValue = some (wrap64 (-(s.dataWord x).toInt)) ∧ t.data = s.data) ∧
    (∀ v, 1 ≤ k → k < s.ioSize → s.inAnswer k = .returns v none →
      ∃ t, exec (.subleq (.direct k) (.direct x) (.direct (s.pc + 3))) s = .next t ∧
        t.pc = s.pc + 3 ∧
        ∀ i, t.dataWord i = if i = x then wrap64 ((s.dataWord x).toInt - v.toInt) else s.dataWord i) ∧
    (∀ v, 1 ≤ k → k < s.ioSize → s.inAnswer k = .returns v none →
      (s.recordIn k (.value v)).outAnswer v k = .returns false none →
      ∃ t, exec (.subleq (.direct k) (.direct k) (.direct (s.pc + 3))) s = .next t ∧
        t.pc = s.pc + 3 ∧ t.data = s.data ∧
        t.trace = s.trace ++ [.input k (.value v), .output v k .proceed])

/-- Arithmetic wraps modulo `2^64` and never traps (spec R148; D2): subtraction and negation are exact when the
result fits and congruent always, and the spec's two overflowing examples come out as it says. -/
def Obligations.ArithmeticWraps : Prop :=
  (∀ b a : Word,
    (subtract b a).toInt % 2 ^ 64 = (b.toInt - a.toInt) % 2 ^ 64 ∧
    (negate a).toInt % 2 ^ 64 = (-a.toInt) % 2 ^ 64 ∧
    (-2 ^ 63 ≤ b.toInt - a.toInt → b.toInt - a.toInt < 2 ^ 63 →
      (subtract b a).toInt = b.toInt - a.toInt)) ∧
  subtract 0x8000000000000000#64 1#64 = 0x7FFFFFFFFFFFFFFF#64 ∧
  branches 0x7FFFFFFFFFFFFFFF#64 = false ∧
  subtract 0x7FFFFFFFFFFFFFFF#64 0xFFFFFFFFFFFFFFFF#64 = 0x8000000000000000#64 ∧
  branches 0x8000000000000000#64 = true

/-! ### What a cycle leaves alone -/

/-- The frame of SUBLEQ, every form: code, sizes, symbol tables and the lifecycle are unchanged; every data
word but the one at the resolved B is unchanged, every one of them when B is an I/O address or resolution
failed; `haltValue` changes only in a halting cycle. The settled answers are the model's own fields, and that they are
only ever used up from the front is its own choice (log entry 2). -/
def Obligations.SubleqFrame : Prop :=
  ∀ (s t : State) (x y z : Operand), exec (.subleq x y z) s = .next t →
    t.code = s.code ∧ t.ioSize = s.ioSize ∧ t.dataSize = s.dataSize ∧
    t.codeSymbols = s.codeSymbols ∧ t.dataSymbols = s.dataSymbols ∧ t.stage = s.stage ∧
    (t.inAnswers = s.inAnswers ∨ t.inAnswers = s.inAnswers.tail) ∧
    (t.outAnswers = s.outAnswers ∨ t.outAnswers = s.outAnswers.tail) ∧
    (t.haltValue = s.haltValue ∨ t.runState = .halted) ∧
    (∀ k, resolveAll s x y z = .error k → t.data = s.data ∧ t.trace = s.trace) ∧
    (∀ ea, resolveAll s x y z = .ok ea →
      (∀ i, i ≠ ea.b → t.dataWord i = s.dataWord i) ∧ (ea.b < s.ioSize → t.data = s.data))

/-- A cycle that ends in Failed or Halted writes no data word and leaves pc unchanged (spec R156, derived there from R140); a failed
one leaves the state as it was but for the loop's state and the transactions made; for OutOfCodeRange pc is
the out-of-range address itself. -/
def Obligations.EndingCyclesWriteNothing : Prop :=
  ∀ s t : State, s.Runs → step s = .next t →
    (t.runState ≠ .running → t.pc = s.pc ∧ t.data = s.data) ∧
    (∀ k, t.runState = .failed k →
      t = { s with runState := .failed k, inAnswers := t.inAnswers, outAnswers := t.outAnswers,
                   trace := t.trace }) ∧
    (t.runState = .failed .outOfCodeRange → s.codeSize ≤ t.pc + 2)

/-- The five outcomes of the pc update (spec R147, whose bound on `pc + 3` is derived there): a fault and a Halt answer leave pc; a Continue answer and
a stored value `> 0` advance it by 3; a stored value `<= 0` sends it to the resolved C; and `pc + 3` never
leaves the range of pc. -/
def Obligations.FiveOutcomesOfPc : Prop :=
  ∀ s t : State, s.Inv → s.Runs → step s = .next t →
    ((∃ k, t.runState = .failed k) ∧ t.pc = s.pc) ∨
    (∃ (x y z : Operand) (rest : List Word) (ea : Resolved),
      decode (s.code.drop s.pc) = .ok (.subleq x y z, rest) ∧ resolveAll s x y z = .ok ea ∧
      ((ea.b < s.ioSize ∧ t.runState = .halted ∧ t.pc = s.pc) ∨
       (ea.b < s.ioSize ∧ t.runState = .running ∧ t.pc = s.pc + 3 ∧ t.pc ≤ Config.maxIndex) ∨
       (s.ioSize ≤ ea.b ∧ t.runState = .running ∧ 0 < (t.dataWord ea.b).toInt ∧ t.pc = s.pc + 3 ∧
         t.pc ≤ Config.maxIndex) ∨
       (s.ioSize ≤ ea.b ∧ t.runState = .running ∧ (t.dataWord ea.b).toInt ≤ 0 ∧ t.pc = ea.c)))

/-- No run writes the code, the sizes or the symbol tables (spec R23, R31, R34), however many cycles it
takes. -/
def Obligations.RunsNeverWriteCodeOrSizes : Prop :=
  ∀ (k : Nat) (s t : State), s.Reaches k t →
    t.code = s.code ∧ t.codeSize = s.codeSize ∧ t.ioSize = s.ioSize ∧ t.dataSize = s.dataSize ∧
    t.codeSymbols = s.codeSymbols ∧ t.dataSymbols = s.dataSymbols

/-- The symbol tables are never consulted by execution (spec R34): a step on a state with other tables is
the same step, with those tables carried through. It compares two runs, and is read as for the same answers
of the host in both, which the model's free handlers give it (log entry 2). -/
def Obligations.SymbolTablesNeverConsulted : Prop :=
  ∀ (s : State) (p q : SymbolTable),
    (∀ t, step s = .next t →
      step { s with codeSymbols := p, dataSymbols := q } =
        .next { t with codeSymbols := p, dataSymbols := q }) ∧
    (∀ r, step s = .fault r → step { s with codeSymbols := p, dataSymbols := q } = .fault r) ∧
    (∀ r, step s = .refused r → step { s with codeSymbols := p, dataSymbols := q } = .refused r)

/-! ### The ports over a cycle and over a run -/

/-- The input transaction (spec R121): it carries the resolved A and is made exactly once, first, in a cycle
that passed all three resolutions and has `eaA < IO_SIZE`; no other cycle makes one. -/
def Obligations.InputTransactionExactlyOnce : Prop :=
  (∀ (s t : State) (x y z : Operand), exec (.subleq x y z) s = .next t →
    ∃ l, t.trace = s.trace ++ l ∧
      (∀ k, resolveAll s x y z = .error k → l = []) ∧
      (∀ ea, resolveAll s x y z = .ok ea →
        (ea.a < s.ioSize → ∃ r l', l = .input ea.a r :: l' ∧ ∀ a' r', .input a' r' ∉ l') ∧
        (s.ioSize ≤ ea.a → ∀ a' r', .input a' r' ∉ l))) ∧
  (∀ s t : State, s.Runs → s.codeSize ≤ s.pc + 2 → step s = .next t → t.trace = s.trace)

/-- The output transaction (spec R124, R140): made exactly in a cycle whose source selector gave a value and
that has `eaB < IO_SIZE`; it is the last of the cycle and carries that value, not negated, and the resolved
B. -/
def Obligations.OutputTransactionExactlyOnce : Prop :=
  ∀ (s t : State) (x y z : Operand) (ea : Resolved), resolveAll s x y z = .ok ea →
    exec (.subleq x y z) s = .next t →
    (∀ v s1, sourceSelect s ea.a = .value v s1 → ea.b < s.ioSize →
      ∃ r, t.trace = s1.trace ++ [.output v ea.b r]) ∧
    (∀ v s1, sourceSelect s ea.a = .value v s1 → s.ioSize ≤ ea.b → t.trace = s1.trace) ∧
    (∀ k s1, sourceSelect s ea.a = .failed k s1 → t.trace = s1.trace)

/-- The trace only grows, each cycle by no, one or two transactions, and when by two the input comes first
and the output carries its value (spec R128, R134; D18). -/
def Obligations.TraceGrowsInProgramOrder : Prop :=
  (∀ s t : State, step s = .next t →
    ∃ l, t.trace = s.trace ++ l ∧
      (l = [] ∨ (∃ a r, l = [.input a r]) ∨ (∃ v b r, l = [.output v b r]) ∨
       (∃ a v b r, l = [.input a (.value v), .output v b r]))) ∧
  (∀ (k : Nat) (s t : State), s.Reaches k t → ∃ l, t.trace = s.trace ++ l ∧ l.length ≤ 2 * k)

/-- The loop halts only by the output port's Halt answer (spec R125, R188): the halting cycle's last
transaction is that answer, at an I/O address, and `haltValue` is the wrapped negation of the value it
carried. -/
def Obligations.OnlyAHaltAnswerHalts : Prop :=
  ∀ s t : State, s.Runs → step s = .next t → t.runState = .halted →
    ∃ (v : Word) (b : Nat) (l : List Transaction), b < s.ioSize ∧
      t.trace = s.trace ++ l ++ [.output v b .halt] ∧ t.haltValue = some (wrap64 (-v.toInt)) ∧
      t.data = s.data ∧ t.pc = s.pc

/-- With IO_SIZE = 0 no transaction is ever made and no run reaches Halted, and the loop never stops for the
host (spec R188, R211): address 0 is ordinary memory. -/
def Obligations.WithoutIoNoRunHalts : Prop :=
  ∀ s : State, s.ioSize = 0 →
    (∀ (k : Nat) (t : State), s.Reaches k t →
      t.trace = s.trace ∧ (s.runState ≠ .halted → t.runState ≠ .halted)) ∧
    (s.stage = .started → ∃ t, step s = .next t)

/-- The only way a cycle has no next state is a handler that never returns (spec R132, R187): no instruction
is refused, and an input request is made before an output request. -/
def Obligations.OnlyASilentHostStopsACycle : Prop :=
  ∀ (s : State) (x y z : Operand),
    (∃ t, exec (.subleq x y z) s = .next t) ∨
    (∃ ea, resolveAll s x y z = .ok ea ∧ ea.a < s.ioSize ∧ s.inAnswer ea.a = .never ∧
      exec (.subleq x y z) s = .fault (.inputNeverAnswered ea.a)) ∨
    (∃ ea v s1, resolveAll s x y z = .ok ea ∧ sourceSelect s ea.a = .value v s1 ∧
      ea.b < s.ioSize ∧ s1.outAnswer v ea.b = .never ∧
      exec (.subleq x y z) s = .fault (.outputNeverAnswered v ea.b))

/-- A handler that never returns leaves the run stuck (spec R132; D16, I1): no next state. The output handler
does so wherever operand A's value `v` came from, an input transaction among it. -/
def Obligations.SilentHostIsStuck : Prop :=
  ∀ (s : State) (x y z : Operand) (ea : Resolved), resolveAll s x y z = .ok ea →
    (ea.a < s.ioSize → s.inAnswer ea.a = .never →
      exec (.subleq x y z) s = .fault (.inputNeverAnswered ea.a)) ∧
    (∀ v s1, sourceSelect s ea.a = .value v s1 → ea.b < s.ioSize → s1.outAnswer v ea.b = .never →
      exec (.subleq x y z) s = .fault (.outputNeverAnswered v ea.b))

/-! ### Construction, load, run -/

/-- Construction (spec R200; D9, D10, D11, D19): refused unless `0 <= IO_SIZE <= DATA_SIZE <= 2^63 - 1`; else every data word
is 0, the code array is empty, and the sizes and handlers are recorded, the
handlers as the answers of theirs that are settled (the model's form: log entry 2). -/
def Obligations.ConstructionRule : Prop :=
  ∀ (io ds : Int) (ins : List InAnswer) (outs : List OutAnswer),
    (0 ≤ io ∧ io ≤ ds ∧ ds ≤ 2 ^ 63 - 1 →
      ∃ s, construct io ds ins outs = .next s ∧ (s.ioSize : Int) = io ∧ (s.dataSize : Int) = ds ∧
        (∀ a, s.dataWord a = 0) ∧ s.codeSize = 0 ∧ s.inAnswers = ins ∧ s.outAnswers = outs) ∧
    (¬(0 ≤ io ∧ io ≤ ds ∧ ds ≤ 2 ^ 63 - 1) → construct io ds ins outs = .refused .sizesRefused)

/-- Load (spec R201; D9): a data image longer than `DATA_SIZE - IO_SIZE` or a code image longer than `2^63 - 1`
is refused; else the code is the image verbatim, the data image stands from IO_SIZE upward, every other
data word is untouched, and the symbol tables are kept. -/
def Obligations.LoadInstallsTheImages : Prop :=
  ∀ (s : State) (m : Image), s.Inv → s.stage = .constructed →
    ((m.data.length : Int) ≤ s.dataSize - s.ioSize → m.code.length ≤ Config.maxIndex →
      ∃ t, load m.code m.data m.codeSymbols m.dataSymbols s = .next t ∧
        t.code = m.code ∧ t.codeSize = m.code.length ∧
        (∀ i, i < m.data.length → t.dataWord (s.ioSize + i) = m.data.getD i 0) ∧
        (∀ a, a < s.ioSize ∨ s.ioSize + m.data.length ≤ a → t.dataWord a = s.dataWord a) ∧
        t.codeSymbols = m.codeSymbols ∧ t.dataSymbols = m.dataSymbols ∧
        t = { s with code := t.code, data := t.data, codeSymbols := t.codeSymbols,
                     dataSymbols := t.dataSymbols, stage := .loaded }) ∧
    ((s.dataSize : Int) - s.ioSize < m.data.length ∨ Config.maxIndex < m.code.length →
      ∃ r, load m.code m.data m.codeSymbols m.dataSymbols s = .refused r)

/-- The lifecycle is Construct, at most one Load, one Run (spec R202, R204; D14, D19, D22): Run is admitted after
a load and without one, where CODE_SIZE is 0, and starts the loop on the state as it stands; the whole life
up to the start of Run is admitted for all sizes and images that fit; no second Load, no Load and no Run
after Run, at whatever point of it; no cycle before Run. That such a cycle is refused, and by which name, is
the model's choice (log entry 8). -/
def Obligations.OneLoadThenOneRun : Prop :=
  (∀ (s t : State) (m n : Image), load m.code m.data m.codeSymbols m.dataSymbols s = .next t →
    load n.code n.data n.codeSymbols n.dataSymbols t = .refused .secondLoad ∧
    step t = .refused .runNotIssued ∧ startRun t = .next { t with stage := .started }) ∧
  (∀ (s t u : State) (k : Nat) (n : Image), startRun s = .next t → t.Reaches k u →
    startRun u = .refused .secondRun ∧
    load n.code n.data n.codeSymbols n.dataSymbols u = .refused .loadAfterRun) ∧
  (∀ (io ds : Int) (ins : List InAnswer) (outs : List OutAnswer) (s : State),
    construct io ds ins outs = .next s →
    step s = .refused .runNotIssued ∧ startRun s = .next { s with stage := .started } ∧
      s.codeSize = 0) ∧
  (∀ (io ds : Int) (ins : List InAnswer) (outs : List OutAnswer) (image : Option Image),
    0 ≤ io → io ≤ ds → ds ≤ 2 ^ 63 - 1 →
    (∀ m, image = some m → (m.data.length : Int) ≤ ds - io ∧ m.code.length ≤ Config.maxIndex) →
    ∃ s, boot io ds ins outs image = .next s)

/-- The state at the start of Run (spec R40, R203; D8, D9, D19), of every machine and image. -/
def Obligations.StateAtTheStartOfRun : Prop :=
  ∀ (io ds : Int) (ins : List InAnswer) (outs : List OutAnswer) (image : Option Image) (s : State),
    boot io ds ins outs image = .next s →
    s.pc = 0 ∧ s.runState = .running ∧ s.haltValue = none ∧
    (s.ioSize : Int) = io ∧ (s.dataSize : Int) = ds ∧
    (∀ a, a < s.ioSize → s.dataWord a = 0) ∧
    (image = none → s.code = [] ∧ s.codeSize = 0 ∧ ∀ a, s.dataWord a = 0) ∧
    (∀ m, image = some m →
      s.code = m.code ∧ s.codeSize = m.code.length ∧
      (∀ i, i < m.data.length → s.dataWord (s.ioSize + i) = m.data.getD i 0) ∧
      (∀ a, s.ioSize + m.data.length ≤ a → s.dataWord a = 0))

/-- The degenerate configurations are legal and behave as spec R211 derives: fewer than three code words fail
the first cycle at pc 0; with IO_SIZE = 0 no transaction happens and no cycle halts; with
IO_SIZE = DATA_SIZE no data word is ever written, a direct A or B `>= DATA_SIZE` raises
DataIndexOutOfRange at its access and an indirect one with such a pointer raises OutOfMemoryRangeError
(said of every state, since no state that meets the invariant has such a pointer there);
with DATA_SIZE = 0 every cycle that passes the fetch fails with DataIndexOutOfRange. -/
def Obligations.DegenerateConfigurations : Prop :=
  (∀ s : State, s.Inv → s.Runs →
    (s.codeSize < 3 → step s = .next { s with runState := .failed .outOfCodeRange }) ∧
    (s.ioSize = 0 → ∃ t, step s = .next t ∧ t.trace = s.trace ∧ t.runState ≠ .halted) ∧
    (s.ioSize = s.dataSize →
      (∀ t, step s = .next t → t.data = s.data) ∧
      (∀ (n : Nat) (y z : Operand) (ea : Resolved), s.dataSize ≤ n →
        resolveAll s (.direct n) y z = .ok ea →
        exec (.subleq (.direct n) y z) s = .next (s.raise .dataIndexOutOfRange)) ∧
      (∀ (n : Nat) (x z : Operand) (ea : Resolved) (v : Word) (s1 : State), s.dataSize ≤ n →
        resolveAll s x (.direct n) z = .ok ea → sourceSelect s ea.a = .value v s1 →
        exec (.subleq x (.direct n) z) s = .next (s1.raise .dataIndexOutOfRange))) ∧
    (s.dataSize = 0 → s.pc + 2 < s.codeSize →
      step s = .next { s with runState := .failed .dataIndexOutOfRange })) ∧
  (∀ (s : State) (slot : Slot) (l : Nat), s.ioSize = s.dataSize → slot ≠ .c → l < s.dataSize →
    (s.dataSize : Int) ≤ (s.dataWord l).toInt →
    resolve s slot (.indirect l) = .error .outOfMemoryRange)

/-- The host reads `haltValue` in the Halted state and in no other (spec R29; D8): in every state that meets the
invariant it has a value exactly there. A run that halted ended with that value, a run that failed ended with
its fault kind, and a run that goes on has not ended (spec R187). -/
def Obligations.HaltValueOnlyWhenHalted : Prop :=
  ∀ s : State, s.Inv →
    (s.runState = .halted → ∃ v, s.haltValue = some v ∧ readHaltValue s = .next v ∧
      s.runEnd = some (.halted v)) ∧
    (s.runState ≠ .halted → s.haltValue = none ∧ readHaltValue s = .refused .noHaltValue) ∧
    (∀ k, s.runState = .failed k → s.runEnd = some (.failed k)) ∧
    (s.runState = .running ↔ s.runEnd = none)

/-! ### The invariant -/

/-- Every step keeps the invariant: the sizes, the range of pc, the canonical data array within ordinary
memory, the halt value in the Halted state alone. -/
def Obligations.StepKeepsTheInvariant : Prop :=
  ∀ s t : State, s.Inv → step s = .next t → t.Inv

/-- The reset state meets the invariant; its two sizes are the model's choice (log entry 1). -/
def Obligations.ResetMeetsTheInvariant : Prop := State.reset.Inv

/-- Every machine that Construct, an optional Load and Run give runs, with an empty trace, and meets the
invariant, and so does every state its run reaches. -/
def Obligations.EveryRunMeetsTheInvariant : Prop :=
  ∀ (io ds : Int) (ins : List InAnswer) (outs : List OutAnswer) (image : Option Image) (s t : State)
    (k : Nat), boot io ds ins outs image = .next s → s.Reaches k t →
    s.Runs ∧ s.trace = [] ∧ s.Inv ∧ t.Inv

/-! ### What the end of a run shows -/

/-- What a run that ended is observed to have done (spec R39, R187; D18): how it ended, with `haltValue` when
Halted and the fault kind when Failed, the final data and pc, and the trace; a run that goes on is not
observed. Of a run that ends with a cycle from `s`, the data and the pc observed are those at which that cycle
began. -/
def Obligations.EndOfRunObservation : Prop :=
  (∀ s : State, s.Inv →
    (s.runState = .running → s.observe = none) ∧
    (s.runState = .halted → ∃ v, s.haltValue = some v ∧ s.observe =
      some { ending := .halted v, data := s.data, pc := s.pc, trace := s.trace }) ∧
    (∀ k, s.runState = .failed k → s.observe =
      some { ending := .failed k, data := s.data, pc := s.pc, trace := s.trace })) ∧
  (∀ (s t : State) (o : Observation), s.Runs → step s = .next t → t.observe = some o →
    o.data = s.data ∧ o.pc = s.pc ∧ o.trace = t.trace ∧
    (∀ v, o.ending = .halted v ↔ t.runState = .halted ∧ t.haltValue = some v) ∧
    (∀ k, o.ending = .failed k ↔ t.runState = .failed k))
end

