-- ==== Sys2Proof/Laws/State.lean ====
section
/-! SUPPORT. What each named update does to each field of State. -/

namespace Sys2Proof.Machine

@[simp] theorem State.storeData_code (s : State) (a : Nat) (v : Word) : (s.storeData a v).code = s.code := rfl
@[simp] theorem State.storeData_data (s : State) (a : Nat) (v : Word) : (s.storeData a v).data = Memory.write s.data a v := rfl
@[simp] theorem State.storeData_pc (s : State) (a : Nat) (v : Word) : (s.storeData a v).pc = s.pc := rfl
@[simp] theorem State.storeData_runState (s : State) (a : Nat) (v : Word) : (s.storeData a v).runState = s.runState := rfl
@[simp] theorem State.storeData_haltValue (s : State) (a : Nat) (v : Word) : (s.storeData a v).haltValue = s.haltValue := rfl
@[simp] theorem State.storeData_ioSize (s : State) (a : Nat) (v : Word) : (s.storeData a v).ioSize = s.ioSize := rfl
@[simp] theorem State.storeData_dataSize (s : State) (a : Nat) (v : Word) : (s.storeData a v).dataSize = s.dataSize := rfl
@[simp] theorem State.storeData_codeSymbols (s : State) (a : Nat) (v : Word) : (s.storeData a v).codeSymbols = s.codeSymbols := rfl
@[simp] theorem State.storeData_dataSymbols (s : State) (a : Nat) (v : Word) : (s.storeData a v).dataSymbols = s.dataSymbols := rfl
@[simp] theorem State.storeData_stage (s : State) (a : Nat) (v : Word) : (s.storeData a v).stage = s.stage := rfl
@[simp] theorem State.storeData_inAnswers (s : State) (a : Nat) (v : Word) : (s.storeData a v).inAnswers = s.inAnswers := rfl
@[simp] theorem State.storeData_outAnswers (s : State) (a : Nat) (v : Word) : (s.storeData a v).outAnswers = s.outAnswers := rfl
@[simp] theorem State.storeData_trace (s : State) (a : Nat) (v : Word) : (s.storeData a v).trace = s.trace := rfl
@[simp] theorem State.storeData_codeSize (s : State) (a : Nat) (v : Word) : (s.storeData a v).codeSize = s.codeSize := rfl

@[simp] theorem State.setPc_code (s : State) (t : Nat) : (s.setPc t).code = s.code := rfl
@[simp] theorem State.setPc_data (s : State) (t : Nat) : (s.setPc t).data = s.data := rfl
@[simp] theorem State.setPc_pc (s : State) (t : Nat) : (s.setPc t).pc = t := rfl
@[simp] theorem State.setPc_runState (s : State) (t : Nat) : (s.setPc t).runState = s.runState := rfl
@[simp] theorem State.setPc_haltValue (s : State) (t : Nat) : (s.setPc t).haltValue = s.haltValue := rfl
@[simp] theorem State.setPc_ioSize (s : State) (t : Nat) : (s.setPc t).ioSize = s.ioSize := rfl
@[simp] theorem State.setPc_dataSize (s : State) (t : Nat) : (s.setPc t).dataSize = s.dataSize := rfl
@[simp] theorem State.setPc_codeSymbols (s : State) (t : Nat) : (s.setPc t).codeSymbols = s.codeSymbols := rfl
@[simp] theorem State.setPc_dataSymbols (s : State) (t : Nat) : (s.setPc t).dataSymbols = s.dataSymbols := rfl
@[simp] theorem State.setPc_stage (s : State) (t : Nat) : (s.setPc t).stage = s.stage := rfl
@[simp] theorem State.setPc_inAnswers (s : State) (t : Nat) : (s.setPc t).inAnswers = s.inAnswers := rfl
@[simp] theorem State.setPc_outAnswers (s : State) (t : Nat) : (s.setPc t).outAnswers = s.outAnswers := rfl
@[simp] theorem State.setPc_trace (s : State) (t : Nat) : (s.setPc t).trace = s.trace := rfl
@[simp] theorem State.setPc_codeSize (s : State) (t : Nat) : (s.setPc t).codeSize = s.codeSize := rfl
@[simp] theorem State.setPc_dataWord (s : State) (t : Nat) (i : Nat) : (s.setPc t).dataWord i = s.dataWord i := rfl

@[simp] theorem State.raise_code (s : State) (k : FaultKind) : (s.raise k).code = s.code := rfl
@[simp] theorem State.raise_data (s : State) (k : FaultKind) : (s.raise k).data = s.data := rfl
@[simp] theorem State.raise_pc (s : State) (k : FaultKind) : (s.raise k).pc = s.pc := rfl
@[simp] theorem State.raise_runState (s : State) (k : FaultKind) : (s.raise k).runState = .failed k := rfl
@[simp] theorem State.raise_haltValue (s : State) (k : FaultKind) : (s.raise k).haltValue = s.haltValue := rfl
@[simp] theorem State.raise_ioSize (s : State) (k : FaultKind) : (s.raise k).ioSize = s.ioSize := rfl
@[simp] theorem State.raise_dataSize (s : State) (k : FaultKind) : (s.raise k).dataSize = s.dataSize := rfl
@[simp] theorem State.raise_codeSymbols (s : State) (k : FaultKind) : (s.raise k).codeSymbols = s.codeSymbols := rfl
@[simp] theorem State.raise_dataSymbols (s : State) (k : FaultKind) : (s.raise k).dataSymbols = s.dataSymbols := rfl
@[simp] theorem State.raise_stage (s : State) (k : FaultKind) : (s.raise k).stage = s.stage := rfl
@[simp] theorem State.raise_inAnswers (s : State) (k : FaultKind) : (s.raise k).inAnswers = s.inAnswers := rfl
@[simp] theorem State.raise_outAnswers (s : State) (k : FaultKind) : (s.raise k).outAnswers = s.outAnswers := rfl
@[simp] theorem State.raise_trace (s : State) (k : FaultKind) : (s.raise k).trace = s.trace := rfl
@[simp] theorem State.raise_codeSize (s : State) (k : FaultKind) : (s.raise k).codeSize = s.codeSize := rfl
@[simp] theorem State.raise_dataWord (s : State) (k : FaultKind) (i : Nat) : (s.raise k).dataWord i = s.dataWord i := rfl

@[simp] theorem State.halt_code (s : State) (v : Word) : (s.halt v).code = s.code := rfl
@[simp] theorem State.halt_data (s : State) (v : Word) : (s.halt v).data = s.data := rfl
@[simp] theorem State.halt_pc (s : State) (v : Word) : (s.halt v).pc = s.pc := rfl
@[simp] theorem State.halt_runState (s : State) (v : Word) : (s.halt v).runState = .halted := rfl
@[simp] theorem State.halt_haltValue (s : State) (v : Word) : (s.halt v).haltValue = some v := rfl
@[simp] theorem State.halt_ioSize (s : State) (v : Word) : (s.halt v).ioSize = s.ioSize := rfl
@[simp] theorem State.halt_dataSize (s : State) (v : Word) : (s.halt v).dataSize = s.dataSize := rfl
@[simp] theorem State.halt_codeSymbols (s : State) (v : Word) : (s.halt v).codeSymbols = s.codeSymbols := rfl
@[simp] theorem State.halt_dataSymbols (s : State) (v : Word) : (s.halt v).dataSymbols = s.dataSymbols := rfl
@[simp] theorem State.halt_stage (s : State) (v : Word) : (s.halt v).stage = s.stage := rfl
@[simp] theorem State.halt_inAnswers (s : State) (v : Word) : (s.halt v).inAnswers = s.inAnswers := rfl
@[simp] theorem State.halt_outAnswers (s : State) (v : Word) : (s.halt v).outAnswers = s.outAnswers := rfl
@[simp] theorem State.halt_trace (s : State) (v : Word) : (s.halt v).trace = s.trace := rfl
@[simp] theorem State.halt_codeSize (s : State) (v : Word) : (s.halt v).codeSize = s.codeSize := rfl
@[simp] theorem State.halt_dataWord (s : State) (v : Word) (i : Nat) : (s.halt v).dataWord i = s.dataWord i := rfl

@[simp] theorem State.recordIn_code (s : State) (a : Nat) (r : InResponse) : (s.recordIn a r).code = s.code := rfl
@[simp] theorem State.recordIn_data (s : State) (a : Nat) (r : InResponse) : (s.recordIn a r).data = s.data := rfl
@[simp] theorem State.recordIn_pc (s : State) (a : Nat) (r : InResponse) : (s.recordIn a r).pc = s.pc := rfl
@[simp] theorem State.recordIn_runState (s : State) (a : Nat) (r : InResponse) : (s.recordIn a r).runState = s.runState := rfl
@[simp] theorem State.recordIn_haltValue (s : State) (a : Nat) (r : InResponse) : (s.recordIn a r).haltValue = s.haltValue := rfl
@[simp] theorem State.recordIn_ioSize (s : State) (a : Nat) (r : InResponse) : (s.recordIn a r).ioSize = s.ioSize := rfl
@[simp] theorem State.recordIn_dataSize (s : State) (a : Nat) (r : InResponse) : (s.recordIn a r).dataSize = s.dataSize := rfl
@[simp] theorem State.recordIn_codeSymbols (s : State) (a : Nat) (r : InResponse) : (s.recordIn a r).codeSymbols = s.codeSymbols := rfl
@[simp] theorem State.recordIn_dataSymbols (s : State) (a : Nat) (r : InResponse) : (s.recordIn a r).dataSymbols = s.dataSymbols := rfl
@[simp] theorem State.recordIn_stage (s : State) (a : Nat) (r : InResponse) : (s.recordIn a r).stage = s.stage := rfl
@[simp] theorem State.recordIn_inAnswers (s : State) (a : Nat) (r : InResponse) : (s.recordIn a r).inAnswers = s.inAnswers.tail := rfl
@[simp] theorem State.recordIn_outAnswers (s : State) (a : Nat) (r : InResponse) : (s.recordIn a r).outAnswers = s.outAnswers := rfl
@[simp] theorem State.recordIn_trace (s : State) (a : Nat) (r : InResponse) : (s.recordIn a r).trace = s.trace ++ [.input a r] := rfl
@[simp] theorem State.recordIn_codeSize (s : State) (a : Nat) (r : InResponse) : (s.recordIn a r).codeSize = s.codeSize := rfl
@[simp] theorem State.recordIn_dataWord (s : State) (a : Nat) (r : InResponse) (i : Nat) : (s.recordIn a r).dataWord i = s.dataWord i := rfl

@[simp] theorem State.recordOut_code (s : State) (v : Word) (a : Nat) (r : OutResponse) : (s.recordOut v a r).code = s.code := rfl
@[simp] theorem State.recordOut_data (s : State) (v : Word) (a : Nat) (r : OutResponse) : (s.recordOut v a r).data = s.data := rfl
@[simp] theorem State.recordOut_pc (s : State) (v : Word) (a : Nat) (r : OutResponse) : (s.recordOut v a r).pc = s.pc := rfl
@[simp] theorem State.recordOut_runState (s : State) (v : Word) (a : Nat) (r : OutResponse) : (s.recordOut v a r).runState = s.runState := rfl
@[simp] theorem State.recordOut_haltValue (s : State) (v : Word) (a : Nat) (r : OutResponse) : (s.recordOut v a r).haltValue = s.haltValue := rfl
@[simp] theorem State.recordOut_ioSize (s : State) (v : Word) (a : Nat) (r : OutResponse) : (s.recordOut v a r).ioSize = s.ioSize := rfl
@[simp] theorem State.recordOut_dataSize (s : State) (v : Word) (a : Nat) (r : OutResponse) : (s.recordOut v a r).dataSize = s.dataSize := rfl
@[simp] theorem State.recordOut_codeSymbols (s : State) (v : Word) (a : Nat) (r : OutResponse) : (s.recordOut v a r).codeSymbols = s.codeSymbols := rfl
@[simp] theorem State.recordOut_dataSymbols (s : State) (v : Word) (a : Nat) (r : OutResponse) : (s.recordOut v a r).dataSymbols = s.dataSymbols := rfl
@[simp] theorem State.recordOut_stage (s : State) (v : Word) (a : Nat) (r : OutResponse) : (s.recordOut v a r).stage = s.stage := rfl
@[simp] theorem State.recordOut_inAnswers (s : State) (v : Word) (a : Nat) (r : OutResponse) : (s.recordOut v a r).inAnswers = s.inAnswers := rfl
@[simp] theorem State.recordOut_outAnswers (s : State) (v : Word) (a : Nat) (r : OutResponse) : (s.recordOut v a r).outAnswers = s.outAnswers.tail := rfl
@[simp] theorem State.recordOut_trace (s : State) (v : Word) (a : Nat) (r : OutResponse) : (s.recordOut v a r).trace = s.trace ++ [.output v a r] := rfl
@[simp] theorem State.recordOut_codeSize (s : State) (v : Word) (a : Nat) (r : OutResponse) : (s.recordOut v a r).codeSize = s.codeSize := rfl
@[simp] theorem State.recordOut_dataWord (s : State) (v : Word) (a : Nat) (r : OutResponse) (i : Nat) : (s.recordOut v a r).dataWord i = s.dataWord i := rfl

@[simp] theorem State.install_code (s : State) (c d : List Word) (p q : SymbolTable) : (s.install c d p q).code = c := rfl
@[simp] theorem State.install_data (s : State) (c d : List Word) (p q : SymbolTable) : (s.install c d p q).data = Memory.writeImage s.data s.ioSize d := rfl
@[simp] theorem State.install_pc (s : State) (c d : List Word) (p q : SymbolTable) : (s.install c d p q).pc = s.pc := rfl
@[simp] theorem State.install_runState (s : State) (c d : List Word) (p q : SymbolTable) : (s.install c d p q).runState = s.runState := rfl
@[simp] theorem State.install_haltValue (s : State) (c d : List Word) (p q : SymbolTable) : (s.install c d p q).haltValue = s.haltValue := rfl
@[simp] theorem State.install_ioSize (s : State) (c d : List Word) (p q : SymbolTable) : (s.install c d p q).ioSize = s.ioSize := rfl
@[simp] theorem State.install_dataSize (s : State) (c d : List Word) (p q : SymbolTable) : (s.install c d p q).dataSize = s.dataSize := rfl
@[simp] theorem State.install_codeSymbols (s : State) (c d : List Word) (p q : SymbolTable) : (s.install c d p q).codeSymbols = p := rfl
@[simp] theorem State.install_dataSymbols (s : State) (c d : List Word) (p q : SymbolTable) : (s.install c d p q).dataSymbols = q := rfl
@[simp] theorem State.install_stage (s : State) (c d : List Word) (p q : SymbolTable) : (s.install c d p q).stage = .loaded := rfl
@[simp] theorem State.install_inAnswers (s : State) (c d : List Word) (p q : SymbolTable) : (s.install c d p q).inAnswers = s.inAnswers := rfl
@[simp] theorem State.install_outAnswers (s : State) (c d : List Word) (p q : SymbolTable) : (s.install c d p q).outAnswers = s.outAnswers := rfl
@[simp] theorem State.install_trace (s : State) (c d : List Word) (p q : SymbolTable) : (s.install c d p q).trace = s.trace := rfl
@[simp] theorem State.install_codeSize (s : State) (c d : List Word) (p q : SymbolTable) : (s.install c d p q).codeSize = c.length := rfl

end Sys2Proof.Machine
end

