-- ==== Sys2Proof/Laws/Memory.lean ====
section
/-! SUPPORT. The laws of the data array: read after write, the canonical form, the bounds. -/

namespace Sys2Proof.Machine

theorem Memory.wfFrom_mono {lo lo' : Nat} {m : Memory} (h : Memory.wfFrom lo m = true) (hle : lo' ≤ lo) :
    Memory.wfFrom lo' m = true := by
  cases m with
  | nil => rfl
  | cons e m =>
    simp only [Memory.wfFrom, Bool.and_eq_true, decide_eq_true_eq] at h ⊢
    exact ⟨⟨by omega, h.1.2⟩, h.2⟩

/-- A canonical memory reads 0 below its lowest allowed address. -/
theorem Memory.read_below {lo a : Nat} {m : Memory} (h : Memory.wfFrom lo m = true) (ha : a < lo) :
    Memory.read m a = 0#64 := by
  induction m generalizing lo with
  | nil => rfl
  | cons e m ih =>
    simp only [Memory.wfFrom, Bool.and_eq_true, decide_eq_true_eq] at h
    rw [Memory.read, if_neg (by omega)]
    exact ih h.2 (by omega)

theorem Memory.read_write_other {a i : Nat} (m : Memory) (v : Word) (h : i ≠ a) :
    Memory.read (Memory.write m a v) i = Memory.read m i := by
  induction m with
  | nil => by_cases hv : v = 0#64 <;> simp [Memory.write, Memory.read, hv, h]
  | cons e m ih =>
    obtain ⟨k, w⟩ := e
    by_cases h1 : a < k
    · by_cases hv : v = 0#64 <;> simp [Memory.write, Memory.read, h1, hv, h]
    · by_cases h2 : a = k
      · subst h2
        by_cases hv : v = 0#64 <;> simp [Memory.write, Memory.read, hv, h]
      · simp [Memory.write, Memory.read, h1, h2, ih]

theorem Memory.read_write_same {lo : Nat} {m : Memory} (a : Nat) (v : Word)
    (h : Memory.wfFrom lo m = true) : Memory.read (Memory.write m a v) a = v := by
  induction m generalizing lo with
  | nil => by_cases hv : v = 0#64 <;> simp [Memory.write, Memory.read, hv]
  | cons e m ih =>
    obtain ⟨k, w⟩ := e
    simp only [Memory.wfFrom, Bool.and_eq_true, decide_eq_true_eq] at h
    by_cases h1 : a < k
    · by_cases hv : v = 0#64
      · have := Memory.read_below h.2 (show a < k + 1 by omega)
        simp [Memory.write, Memory.read, h1, hv, this]
        omega
      · simp [Memory.write, Memory.read, h1, hv]
    · by_cases h2 : a = k
      · subst h2
        by_cases hv : v = 0#64
        · have := Memory.read_below h.2 (show a < a + 1 by omega)
          simp [Memory.write, hv, this]
        · simp [Memory.write, Memory.read, hv]
      · simp [Memory.write, Memory.read, h1, h2, ih h.2]

/-- A read after a write, at any address. -/
theorem Memory.read_write {lo : Nat} {m : Memory} (a i : Nat) (v : Word)
    (h : Memory.wfFrom lo m = true) :
    Memory.read (Memory.write m a v) i = if i = a then v else Memory.read m i := by
  by_cases hi : i = a
  · subst hi
    simpa using Memory.read_write_same i v h
  · simpa [hi] using Memory.read_write_other m v hi

/-- A write at an allowed address keeps the canonical form. -/
theorem Memory.wfFrom_write {lo a : Nat} {m : Memory} (v : Word) (h : Memory.wfFrom lo m = true)
    (ha : lo ≤ a) : Memory.wfFrom lo (Memory.write m a v) = true := by
  induction m generalizing lo with
  | nil => by_cases hv : v = 0#64 <;> simp [Memory.write, Memory.wfFrom, hv, ha]
  | cons e m ih =>
    obtain ⟨k, w⟩ := e
    simp only [Memory.wfFrom, Bool.and_eq_true, decide_eq_true_eq] at h
    obtain ⟨⟨hk, hw⟩, hm⟩ := h
    by_cases h1 : a < k
    · by_cases hv : v = 0#64
      · simp [Memory.write, Memory.wfFrom, h1, hv, hk, hw, hm]
      · simp [Memory.write, Memory.wfFrom, h1, hv, ha, hw, hm]
    · by_cases h2 : a = k
      · subst h2
        by_cases hv : v = 0#64
        · simpa [Memory.write, hv] using Memory.wfFrom_mono hm (by omega)
        · simp [Memory.write, Memory.wfFrom, hv, hk, hm]
      · simp [Memory.write, Memory.wfFrom, h1, h2, hk, hw, ih hm (by omega)]

theorem Memory.wf_write {m : Memory} (a : Nat) (v : Word) (h : Memory.wf m = true) :
    Memory.wf (Memory.write m a v) = true :=
  Memory.wfFrom_write v h (Nat.zero_le a)

/-- A write below the bound keeps every listed address below it. -/
theorem Memory.below_write {hi a : Nat} {m : Memory} (v : Word) (h : Memory.below hi m = true)
    (ha : a < hi) : Memory.below hi (Memory.write m a v) = true := by
  induction m with
  | nil => by_cases hv : v = 0#64 <;> simp [Memory.write, Memory.below, hv, ha]
  | cons e m ih =>
    obtain ⟨k, w⟩ := e
    rw [Memory.below, List.all_cons, Bool.and_eq_true] at h
    obtain ⟨hk, hm⟩ := h
    by_cases h1 : a < k
    · by_cases hv : v = 0#64 <;> simp only [Memory.write, h1, hv, if_true, if_false, Memory.below,
        List.all_cons, ha, hk, hm, decide_true, Bool.and_self]
    · by_cases h2 : a = k
      · by_cases hv : v = 0#64 <;> simp only [Memory.write, h2, hv, if_true, if_false, Memory.below,
          List.all_cons, hk, hm, Bool.and_self, lt_irrefl]
      · have := ih hm
        rw [Memory.below] at this
        simp only [Memory.write, h1, h2, if_false, Memory.below, List.all_cons, hk, this, Bool.and_self]

theorem Memory.wfFrom_writeImage {lo a : Nat} {m : Memory} (vs : List Word)
    (h : Memory.wfFrom lo m = true) (ha : lo ≤ a) :
    Memory.wfFrom lo (Memory.writeImage m a vs) = true := by
  induction vs generalizing m a with
  | nil => exact h
  | cons v vs ih => exact ih (Memory.wfFrom_write v h ha) (by omega)

theorem Memory.below_writeImage {hi a : Nat} {m : Memory} (vs : List Word)
    (h : Memory.below hi m = true) (ha : a + vs.length ≤ hi) :
    Memory.below hi (Memory.writeImage m a vs) = true := by
  induction vs generalizing m a with
  | nil => exact h
  | cons v vs ih =>
    simp only [List.length_cons] at ha
    exact ih (Memory.below_write v h (by omega)) (by omega)

/-- Where an image was written, its words are read; elsewhere the memory is as before. -/
theorem Memory.read_writeImage {lo a : Nat} {m : Memory} (vs : List Word) (i : Nat)
    (h : Memory.wfFrom lo m = true) (ha : lo ≤ a) :
    Memory.read (Memory.writeImage m a vs) i =
      if a ≤ i ∧ i < a + vs.length then vs.getD (i - a) 0#64 else Memory.read m i := by
  induction vs generalizing m a with
  | nil =>
    rw [if_neg (by simp)]
    rfl
  | cons v vs ih =>
    rw [Memory.writeImage, ih (Memory.wfFrom_write v h ha) (by omega), Memory.read_write a i v h]
    by_cases h1 : i = a
    · subst h1
      simp
    · by_cases h2 : a + 1 ≤ i ∧ i < a + 1 + vs.length
      · rw [if_pos h2, if_pos (by simp only [List.length_cons]; omega),
          show i - a = i - (a + 1) + 1 by omega, List.getD_cons_succ]
      · rw [if_neg h2, if_neg h1, if_neg (by simp only [List.length_cons]; omega)]

/-- A data word after a store. -/
theorem dataWord_storeData {lo : Nat} {s : State} (h : Memory.wfFrom lo s.data = true) (a i : Nat)
    (v : Word) : (s.storeData a v).dataWord i = if i = a then v else s.dataWord i :=
  Memory.read_write a i v h

/-- A data word that no store was made to. -/
theorem dataWord_storeData_other (s : State) {a i : Nat} (v : Word) (h : i ≠ a) :
    (s.storeData a v).dataWord i = s.dataWord i :=
  Memory.read_write_other s.data v h

/-- Equal reads mean equal data: the canonical form is canonical. -/
theorem Memory.ext {lo : Nat} {m n : Memory} (hm : Memory.wfFrom lo m = true)
    (hn : Memory.wfFrom lo n = true) (h : ∀ a, Memory.read m a = Memory.read n a) : m = n := by
  induction m generalizing lo n with
  | nil =>
    cases n with
    | nil => rfl
    | cons e n =>
      simp only [Memory.wfFrom, Bool.and_eq_true, decide_eq_true_eq] at hn
      exact absurd (by simpa [Memory.read] using (h e.1).symm) hn.1.2
  | cons e m ih =>
    obtain ⟨k, w⟩ := e
    simp only [Memory.wfFrom, Bool.and_eq_true, decide_eq_true_eq] at hm
    cases n with
    | nil => exact absurd (by simpa [Memory.read] using h k) hm.1.2
    | cons e' n =>
      obtain ⟨k', w'⟩ := e'
      simp only [Memory.wfFrom, Bool.and_eq_true, decide_eq_true_eq] at hn
      have hk : k = k' := by
        rcases Nat.lt_trichotomy k k' with hlt | heq | hgt
        · have h0 := h k
          rw [Memory.read, if_pos rfl, Memory.read, if_neg (by omega),
            Memory.read_below hn.2 (by omega)] at h0
          exact absurd h0 hm.1.2
        · exact heq
        · have h0 := h k'
          rw [Memory.read, if_neg (by omega), Memory.read, if_pos rfl,
            Memory.read_below hm.2 (by omega)] at h0
          exact absurd h0.symm hn.1.2
      subst hk
      have hw : w = w' := by simpa [Memory.read] using h k
      subst hw
      have htail : m = n := by
        refine ih hm.2 hn.2 fun a => ?_
        by_cases ha : a = k
        · subst ha
          rw [Memory.read_below hm.2 (by omega), Memory.read_below hn.2 (by omega)]
        · simpa [Memory.read, ha] using h a
      rw [htail]

end Sys2Proof.Machine
end

