-- ==== Sys2Proof/Laws/Operands.lean ====
section
/-! SUPPORT. What the operand resolver can answer. -/

namespace Sys2Proof.Machine

theorem readData_of_lt {s : State} {a : Nat} (h : a < s.dataSize) : s.readData a = .ok (s.dataWord a) := by
  simp [State.readData, h]

theorem readData_of_le {s : State} {a : Nat} (h : s.dataSize ≤ a) :
    s.readData a = .error .dataIndexOutOfRange := by
  simp [State.readData, Nat.not_lt.mpr h]

theorem resolve_direct (s : State) (slot : Slot) (n : Nat) : resolve s slot (.direct n) = .ok n := rfl

theorem resolve_indirect_of_lt {s : State} {l : Nat} (slot : Slot) (h : l < s.dataSize) :
    resolve s slot (.indirect l) = checkPointer s slot (s.dataWord l) := by
  simp [resolve, readData_of_lt h]

theorem resolve_indirect_of_le {s : State} {l : Nat} (slot : Slot) (h : s.dataSize ≤ l) :
    resolve s slot (.indirect l) = .error .dataIndexOutOfRange := by
  simp [resolve, readData_of_le h]

theorem checkPointer_neg {s : State} {p : Word} (slot : Slot) (h : p.toInt < 0) :
    checkPointer s slot p = .error .doubleIndirect := by
  simp [checkPointer, h]

theorem checkPointer_big {s : State} {p : Word} {slot : Slot} (hs : slot ≠ .c)
    (h : (s.dataSize : Int) ≤ p.toInt) : checkPointer s slot p = .error .outOfMemoryRange := by
  rw [checkPointer, if_neg (by omega), if_pos ⟨hs, h⟩]

theorem checkPointer_ok {s : State} {p : Word} {slot : Slot} (h : 0 ≤ p.toInt)
    (hs : slot = .c ∨ p.toInt < s.dataSize) : checkPointer s slot p = .ok p.toInt.toNat := by
  rw [checkPointer, if_neg (by omega), if_neg]
  rintro ⟨h1, h2⟩
  rcases hs with hs | hs
  · exact h1 hs
  · omega

/-- What an accepted pointer is. -/
theorem checkPointer_eq_ok {s : State} {slot : Slot} {p : Word} {n : Nat}
    (h : checkPointer s slot p = .ok n) : (n : Int) = p.toInt ∧ (slot ≠ .c → n < s.dataSize) := by
  unfold checkPointer at h
  split at h
  · cases h
  · split at h
    · cases h
    · next h1 h2 =>
      cases h
      refine ⟨Int.toNat_of_nonneg (by omega), fun hs => ?_⟩
      have : ¬(s.dataSize : Int) ≤ p.toInt := fun hle => h2 ⟨hs, hle⟩
      omega

theorem checkPointer_eq_error {s : State} {slot : Slot} {p : Word} {k : FaultKind}
    (h : checkPointer s slot p = .error k) :
    k = .doubleIndirect ∨ (k = .outOfMemoryRange ∧ slot ≠ .c) := by
  unfold checkPointer at h
  split at h
  · exact .inl (by cases h; rfl)
  · split at h
    · next h2 => exact .inr ⟨by cases h; rfl, h2.1⟩
    · cases h

/-- Where an indirect operand resolves, its pointer cell exists and holds the address. -/
theorem resolve_indirect_eq_ok {s : State} {slot : Slot} {l n : Nat}
    (h : resolve s slot (.indirect l) = .ok n) :
    l < s.dataSize ∧ (n : Int) = (s.dataWord l).toInt ∧ (slot ≠ .c → n < s.dataSize) := by
  by_cases hl : l < s.dataSize
  · rw [resolve_indirect_of_lt slot hl] at h
    exact ⟨hl, checkPointer_eq_ok h⟩
  · rw [resolve_indirect_of_le slot (by omega)] at h
    cases h

/-- The kinds a resolution can fail with; OutOfMemoryRangeError never in slot C. -/
theorem resolve_eq_error {s : State} {slot : Slot} {o : Operand} {k : FaultKind}
    (h : resolve s slot o = .error k) :
    k = .dataIndexOutOfRange ∨ k = .doubleIndirect ∨ (k = .outOfMemoryRange ∧ slot ≠ .c) := by
  cases o with
  | direct n => cases h
  | indirect l =>
    by_cases hl : l < s.dataSize
    · rw [resolve_indirect_of_lt slot hl] at h
      exact .inr (checkPointer_eq_error h)
    · rw [resolve_indirect_of_le slot (by omega)] at h
      exact .inl (by cases h; rfl)

/-- All three resolve exactly when each does. -/
theorem resolveAll_eq_ok {s : State} {x y z : Operand} {ea : Resolved} :
    resolveAll s x y z = .ok ea ↔
      resolve s .a x = .ok ea.a ∧ resolve s .b y = .ok ea.b ∧ resolve s .c z = .ok ea.c := by
  unfold resolveAll
  cases resolve s .a x with
  | error k => simp
  | ok a =>
    cases resolve s .b y with
    | error k => simp
    | ok b =>
      cases resolve s .c z with
      | error k => simp
      | ok c =>
        constructor
        · intro h
          cases h
          exact ⟨rfl, rfl, rfl⟩
        · rintro ⟨h1, h2, h3⟩
          cases h1
          cases h2
          cases h3
          rfl

theorem resolveAll_of_a {s : State} {x : Operand} {k : FaultKind} (y z : Operand)
    (h : resolve s .a x = .error k) : resolveAll s x y z = .error k := by
  simp [resolveAll, h]

theorem resolveAll_of_b {s : State} {x y : Operand} {k : FaultKind} {ea : Nat} (z : Operand)
    (ha : resolve s .a x = .ok ea) (h : resolve s .b y = .error k) : resolveAll s x y z = .error k := by
  simp [resolveAll, ha, h]

theorem resolveAll_of_c {s : State} {x y z : Operand} {k : FaultKind} {ea eb : Nat}
    (ha : resolve s .a x = .ok ea) (hb : resolve s .b y = .ok eb) (h : resolve s .c z = .error k) :
    resolveAll s x y z = .error k := by
  simp [resolveAll, ha, hb, h]

/-- Which slot a failed resolution failed in. -/
theorem resolveAll_eq_error {s : State} {x y z : Operand} {k : FaultKind}
    (h : resolveAll s x y z = .error k) :
    resolve s .a x = .error k ∨ resolve s .b y = .error k ∨ resolve s .c z = .error k := by
  unfold resolveAll at h
  split at h
  · next he => cases h; exact .inl he
  · split at h
    · next he => cases h; exact .inr (.inl he)
    · split at h
      · next he => cases h; exact .inr (.inr he)
      · cases h

/-- The resolver looks at the data array and its size alone. -/
theorem resolve_congr {s t : State} (hd : t.data = s.data) (hz : t.dataSize = s.dataSize) (slot : Slot)
    (o : Operand) : resolve t slot o = resolve s slot o := by
  cases o with
  | direct n => rfl
  | indirect l => simp [resolve, State.readData, State.dataWord, checkPointer, hd, hz]

theorem resolveAll_congr {s t : State} (hd : t.data = s.data) (hz : t.dataSize = s.dataSize)
    (x y z : Operand) : resolveAll t x y z = resolveAll s x y z := by
  simp only [resolveAll, resolve_congr hd hz]

end Sys2Proof.Machine
end

