-- ==== Sys2Proof/Laws/Words.lean ====
section
/-! SUPPORT. Word arithmetic against bit vectors, and operand words against operands. -/

namespace Sys2Proof

namespace Machine

theorem wrap64_toInt (w : Word) : wrap64 w.toInt = w := by
  simp [wrap64]

/-- The wrapped subtraction is the subtraction of bit vectors. -/
theorem subtract_eq_sub (b a : Word) : subtract b a = b - a := by
  rw [subtract, wrap64, Int.sub_eq_add_neg, BitVec.ofInt_add, BitVec.ofInt_neg, BitVec.ofInt_toInt,
    BitVec.ofInt_toInt, BitVec.sub_eq_add_neg]

/-- The wrapped negation is the negation of bit vectors. -/
theorem negate_eq_neg (a : Word) : negate a = -a := by
  simp [negate, wrap64, BitVec.ofInt_neg]

/-- `wrap64` is congruent to its argument modulo `2^64`. -/
theorem wrap64_emod (v : Int) : (wrap64 v).toInt % 2 ^ 64 = v % 2 ^ 64 := by
  rw [wrap64, BitVec.toInt_ofInt]
  exact Int.bmod_emod

theorem word_lt (w : Word) : w.toInt < 2 ^ 63 := by
  have := @BitVec.toInt_lt 64 w
  simpa using this

theorem le_word (w : Word) : -2 ^ 63 ≤ w.toInt := by
  have := @BitVec.le_toInt 64 w
  simpa using this

end Machine

theorem toInt_ofInt_of_range {v : Int} (h1 : -2 ^ 63 ≤ v) (h2 : v < 2 ^ 63) :
    (BitVec.ofInt 64 v).toInt = v := by
  rw [BitVec.toInt_ofInt]
  exact Int.bmod_eq_of_le (by simpa using h1) (by simpa using h2)

theorem decodeOperand_of_nonneg {r : Word} (h : 0 ≤ r.toInt) :
    decodeOperand r = .direct r.toInt.toNat := by
  simp [decodeOperand, h]

theorem decodeOperand_of_neg {r : Word} (h : r.toInt < 0) :
    decodeOperand r = .indirect (-r.toInt).toNat := by
  simp [decodeOperand, Int.not_le.mpr h]

/-- A decoded operand has an encoding. -/
theorem decodeOperand_wellFormed (r : Word) : (decodeOperand r).wellFormed = true := by
  have h1 := Machine.word_lt r
  have h2 := Machine.le_word r
  by_cases h : 0 ≤ r.toInt
  · rw [decodeOperand_of_nonneg h]
    simp only [Operand.wellFormed, decide_eq_true_eq]
    omega
  · rw [decodeOperand_of_neg (by omega)]
    simp only [Operand.wellFormed, Bool.and_eq_true, decide_eq_true_eq]
    omega

theorem decodeTriplet_wellFormed (a b c : Word) : (decodeTriplet a b c).wellFormed = true := by
  simp [decodeTriplet, Instr.wellFormed, decodeOperand_wellFormed]

/-- The encoding of a decoded word is the word. -/
theorem encodeOperand_decodeOperand (r : Word) : encodeOperand (decodeOperand r) = r := by
  by_cases h : 0 ≤ r.toInt
  · rw [decodeOperand_of_nonneg h, encodeOperand, Int.toNat_of_nonneg h, BitVec.ofInt_toInt]
  · rw [decodeOperand_of_neg (by omega), encodeOperand, Int.toNat_of_nonneg (by omega), neg_neg,
      BitVec.ofInt_toInt]

end Sys2Proof
end

