-- ==== Sys2Proof/Laws/PerInstr.lean ====
section
/-! SUPPORT. The statements made per instruction, about the instruction as syntax. -/

open Sys2Proof

namespace Sys2Proof.Laws.EncodedLength

/-- An instruction is three code words (spec R70, R79). -/
def Statement (i : Instr) : Prop := (encode i).length = 3

theorem subleq (a b c : Operand) : Statement (.subleq a b c) := rfl

end Sys2Proof.Laws.EncodedLength
end

