-- ==== Sys2Proof/Laws/Ports.lean ====
section
/-! SUPPORT. Everything the two selectors can answer. -/

namespace Sys2Proof.Machine

theorem sourceSelect_value {s : State} {a : Nat} {v : Word} (h : a < s.ioSize)
    (hr : inResponse (s.inAnswer a) = some (.value v)) :
    sourceSelect s a = .value v (s.recordIn a (.value v)) := by
  simp [sourceSelect, h, hr]

theorem sourceSelect_error {s : State} {a : Nat} {e : HostError} (h : a < s.ioSize)
    (hr : inResponse (s.inAnswer a) = some (.error e)) :
    sourceSelect s a = .failed (.handlerError e) (s.recordIn a (.error e)) := by
  simp [sourceSelect, h, hr]

theorem sourceSelect_never {s : State} {a : Nat} (h : a < s.ioSize)
    (hr : inResponse (s.inAnswer a) = none) : sourceSelect s a = .stuck a := by
  simp [sourceSelect, h, hr]

theorem sourceSelect_memory {s : State} {a : Nat} (h : s.ioSize ≤ a) (hd : a < s.dataSize) :
    sourceSelect s a = .value (s.dataWord a) s := by
  simp [sourceSelect, Nat.not_lt.mpr h, readData_of_lt hd]

theorem sourceSelect_outside {s : State} {a : Nat} (h : s.ioSize ≤ a) (hd : s.dataSize ≤ a) :
    sourceSelect s a = .failed .dataIndexOutOfRange s := by
  simp [sourceSelect, Nat.not_lt.mpr h, readData_of_le hd]

/-- Where the source selector gives a value, it came from the input port, which was recorded, or from the
data word, and nothing changed. -/
theorem sourceSelect_value_cases {s s1 : State} {a : Nat} {v : Word}
    (h : sourceSelect s a = .value v s1) :
    (a < s.ioSize ∧ inResponse (s.inAnswer a) = some (.value v) ∧ s1 = s.recordIn a (.value v)) ∨
    (s.ioSize ≤ a ∧ a < s.dataSize ∧ v = s.dataWord a ∧ s1 = s) := by
  by_cases hio : a < s.ioSize
  · rcases hr : inResponse (s.inAnswer a) with _ | ⟨w⟩ | ⟨e⟩
    · rw [sourceSelect_never hio hr] at h
      cases h
    · rw [sourceSelect_value hio hr] at h
      cases h
      exact .inl ⟨hio, rfl, rfl⟩
    · rw [sourceSelect_error hio hr] at h
      cases h
  · by_cases hd : a < s.dataSize
    · rw [sourceSelect_memory (by omega) hd] at h
      cases h
      exact .inr ⟨by omega, hd, rfl, rfl⟩
    · rw [sourceSelect_outside (by omega) (by omega)] at h
      cases h

/-- Where the source selector fails, the input port answered an error, which was recorded, or the address is
no data address, and nothing changed. -/
theorem sourceSelect_failed_cases {s s1 : State} {a : Nat} {k : FaultKind}
    (h : sourceSelect s a = .failed k s1) :
    (a < s.ioSize ∧ ∃ e, k = .handlerError e ∧ s1 = s.recordIn a (.error e)) ∨
    (s.ioSize ≤ a ∧ s.dataSize ≤ a ∧ k = .dataIndexOutOfRange ∧ s1 = s) := by
  by_cases hio : a < s.ioSize
  · rcases hr : inResponse (s.inAnswer a) with _ | ⟨w⟩ | ⟨e⟩
    · rw [sourceSelect_never hio hr] at h
      cases h
    · rw [sourceSelect_value hio hr] at h
      cases h
    · rw [sourceSelect_error hio hr] at h
      cases h
      exact .inl ⟨hio, e, rfl, rfl⟩
  · by_cases hd : a < s.dataSize
    · rw [sourceSelect_memory (by omega) hd] at h
      cases h
    · rw [sourceSelect_outside (by omega) (by omega)] at h
      cases h
      exact .inr ⟨by omega, by omega, rfl, rfl⟩

theorem sourceSelect_stuck_cases {s : State} {a b : Nat} (h : sourceSelect s a = .stuck b) :
    b = a ∧ a < s.ioSize ∧ inResponse (s.inAnswer a) = none := by
  by_cases hio : a < s.ioSize
  · rcases hr : inResponse (s.inAnswer a) with _ | ⟨w⟩ | ⟨e⟩
    · rw [sourceSelect_never hio hr] at h
      cases h
      exact ⟨rfl, hio, rfl⟩
    · rw [sourceSelect_value hio hr] at h
      cases h
    · rw [sourceSelect_error hio hr] at h
      cases h
  · by_cases hd : a < s.dataSize
    · rw [sourceSelect_memory (by omega) hd] at h
      cases h
    · rw [sourceSelect_outside (by omega) (by omega)] at h
      cases h

@[simp] theorem inResponse_no_error (v : Word) : inResponse (.returns v none) = some (.value v) := rfl
@[simp] theorem inResponse_with_error (v : Word) (e : HostError) :
    inResponse (.returns v (some e)) = some (.error e) := rfl
@[simp] theorem outResponse_continue : outResponse (.returns false none) = some .proceed := rfl
@[simp] theorem outResponse_halt : outResponse (.returns true none) = some .halt := rfl

theorem inResponse_eq_none {r : InAnswer} : inResponse r = none ↔ r = .never := by
  rcases r with ⟨v, _ | e⟩ | _ <;> simp [inResponse]

theorem outResponse_eq_none {r : OutAnswer} : outResponse r = none ↔ r = .never := by
  rcases r with ⟨_ | _, _ | e⟩ | _ <;> simp [outResponse]

/-- An output answer that carries an error is an error, whatever its boolean. -/
@[simp] theorem outResponse_of_error (b : Bool) (e : HostError) :
    outResponse (.returns b (some e)) = some (.error e) := by
  cases b <;> rfl

theorem destSelect_proceed {s : State} {v : Word} {eb : Nat} (ec : Nat) (h : eb < s.ioSize)
    (hr : outResponse (s.outAnswer v eb) = some .proceed) :
    destSelect s v eb ec = .next ((s.recordOut v eb .proceed).setPc (s.pc + 3)) := by
  simp [destSelect, h, outputPath, hr]

theorem destSelect_halt {s : State} {v : Word} {eb : Nat} (ec : Nat) (h : eb < s.ioSize)
    (hr : outResponse (s.outAnswer v eb) = some .halt) :
    destSelect s v eb ec = .next ((s.recordOut v eb .halt).halt (negate v)) := by
  simp [destSelect, h, outputPath, hr]

theorem destSelect_error {s : State} {v : Word} {eb : Nat} {e : HostError} (ec : Nat) (h : eb < s.ioSize)
    (hr : outResponse (s.outAnswer v eb) = some (.error e)) :
    destSelect s v eb ec = .next ((s.recordOut v eb (.error e)).raise (.handlerError e)) := by
  simp [destSelect, h, outputPath, hr]

theorem destSelect_never {s : State} {v : Word} {eb : Nat} (ec : Nat) (h : eb < s.ioSize)
    (hr : outResponse (s.outAnswer v eb) = none) :
    destSelect s v eb ec = .fault (.outputNeverAnswered v eb) := by
  simp [destSelect, h, outputPath, hr]

theorem destSelect_memory {s : State} {eb : Nat} (v : Word) (ec : Nat) (h : s.ioSize ≤ eb)
    (hd : eb < s.dataSize) :
    destSelect s v eb ec = .next ((s.storeData eb (subtract (s.dataWord eb) v)).setPc
      (if branches (subtract (s.dataWord eb) v) then ec else s.pc + 3)) := by
  simp [destSelect, Nat.not_lt.mpr h, memoryPath, readData_of_lt hd]

theorem destSelect_outside {s : State} {eb : Nat} (v : Word) (ec : Nat) (h : s.ioSize ≤ eb)
    (hd : s.dataSize ≤ eb) : destSelect s v eb ec = .next (s.raise .dataIndexOutOfRange) := by
  simp [destSelect, Nat.not_lt.mpr h, memoryPath, readData_of_le hd]

/-- What the destination selector did, where it gives a next state. -/
inductive DestCase (s : State) (v : Word) (eb ec : Nat) (t : State) : Prop where
  | proceed (hio : eb < s.ioSize) (ht : t = (s.recordOut v eb .proceed).setPc (s.pc + 3))
  | halt (hio : eb < s.ioSize) (ht : t = (s.recordOut v eb .halt).halt (negate v))
  | error (hio : eb < s.ioSize) (e : HostError)
      (ht : t = (s.recordOut v eb (.error e)).raise (.handlerError e))
  | memory (hio : s.ioSize ≤ eb) (hd : eb < s.dataSize)
      (ht : t = (s.storeData eb (subtract (s.dataWord eb) v)).setPc
        (if branches (subtract (s.dataWord eb) v) then ec else s.pc + 3))
  | outside (hio : s.ioSize ≤ eb) (hd : s.dataSize ≤ eb) (ht : t = s.raise .dataIndexOutOfRange)

theorem destSelect_cases {s t : State} {v : Word} {eb ec : Nat} (h : destSelect s v eb ec = .next t) :
    DestCase s v eb ec t := by
  by_cases hio : eb < s.ioSize
  · rcases hr : outResponse (s.outAnswer v eb) with _ | _ | _ | ⟨e⟩
    · rw [destSelect_never ec hio hr] at h
      cases h
    · rw [destSelect_proceed ec hio hr] at h
      cases h
      exact .proceed hio rfl
    · rw [destSelect_halt ec hio hr] at h
      cases h
      exact .halt hio rfl
    · rw [destSelect_error ec hio hr] at h
      cases h
      exact .error hio e rfl
  · by_cases hd : eb < s.dataSize
    · rw [destSelect_memory v ec (by omega) hd] at h
      cases h
      exact .memory (by omega) hd rfl
    · rw [destSelect_outside v ec (by omega) (by omega)] at h
      cases h
      exact .outside (by omega) (by omega) rfl

end Sys2Proof.Machine
end

