-- ==== Sys2Proof/Laws/Subleq.lean ====
section
/-! SUPPORT. Everything SUBLEQ can do. -/

namespace Sys2Proof.Machine

theorem exec_of_error {s : State} {x y z : Operand} {k : FaultKind} (h : resolveAll s x y z = .error k) :
    exec (.subleq x y z) s = .next (s.raise k) := by
  simp [exec, execSubleq, h]

theorem exec_of_failed {s s1 : State} {x y z : Operand} {ea : Resolved} {k : FaultKind}
    (h : resolveAll s x y z = .ok ea) (hs : sourceSelect s ea.a = .failed k s1) :
    exec (.subleq x y z) s = .next (s1.raise k) := by
  simp [exec, execSubleq, h, hs]

theorem exec_of_stuck {s : State} {x y z : Operand} {ea : Resolved} {a : Nat}
    (h : resolveAll s x y z = .ok ea) (hs : sourceSelect s ea.a = .stuck a) :
    exec (.subleq x y z) s = .fault (.inputNeverAnswered a) := by
  simp [exec, execSubleq, h, hs]

theorem exec_of_value {s s1 : State} {x y z : Operand} {ea : Resolved} {v : Word}
    (h : resolveAll s x y z = .ok ea) (hs : sourceSelect s ea.a = .value v s1) :
    exec (.subleq x y z) s = destSelect s1 v ea.b ea.c := by
  simp [exec, execSubleq, h, hs]

/-- What SUBLEQ did, where it gives a next state: resolution failed, the source selector failed, or the
destination selector ran on the source selector's value and state. -/
inductive SubleqCase (s : State) (x y z : Operand) (t : State) : Prop where
  | resolution (k : FaultKind) (h : resolveAll s x y z = .error k) (ht : t = s.raise k)
  | source (ea : Resolved) (h : resolveAll s x y z = .ok ea) (k : FaultKind) (s1 : State)
      (hs : sourceSelect s ea.a = .failed k s1) (ht : t = s1.raise k)
  | dest (ea : Resolved) (h : resolveAll s x y z = .ok ea) (v : Word) (s1 : State)
      (hs : sourceSelect s ea.a = .value v s1) (ht : DestCase s1 v ea.b ea.c t)

theorem exec_cases {s t : State} {x y z : Operand} (h : exec (.subleq x y z) s = .next t) :
    SubleqCase s x y z t := by
  rcases hr : resolveAll s x y z with k | ea
  · rw [exec_of_error hr] at h
    cases h
    exact .resolution k hr rfl
  · rcases hs : sourceSelect s ea.a with ⟨v, s1⟩ | ⟨k, s1⟩ | a
    · rw [exec_of_value hr hs] at h
      exact .dest ea hr v s1 hs (destSelect_cases h)
    · rw [exec_of_failed hr hs] at h
      cases h
      exact .source ea hr k s1 hs rfl
    · rw [exec_of_stuck hr hs] at h
      cases h

end Sys2Proof.Machine
end

