-- ==== Sys2Proof/Laws/Step.lean ====
section
/-! SUPPORT. Everything a step can do, and induction over the steps of a run. -/

namespace Sys2Proof.Machine

theorem fetch_of_le {s : State} (h : s.codeSize ≤ s.pc + 2) : s.fetch = .error .outOfCodeRange := by
  simp [State.fetch, h]

theorem fetch_of_lt {s : State} (h : s.pc + 2 < s.codeSize) :
    s.fetch = .ok (s.codeWord s.pc, s.codeWord (s.pc + 1), s.codeWord (s.pc + 2)) := by
  simp [State.fetch, Nat.not_le.mpr h]

theorem codeWord_eq {s : State} {i : Nat} (h : i < s.codeSize) : s.code[i]? = some (s.codeWord i) := by
  simp only [State.codeSize] at h
  simp [State.codeWord, h]

/-- Where the fetch check passes, the words fetched are the head of the code from pc on. -/
theorem drop_pc_eq {s : State} (h : s.pc + 2 < s.codeSize) :
    s.code.drop s.pc = s.codeWord s.pc :: s.codeWord (s.pc + 1) :: s.codeWord (s.pc + 2) ::
      s.code.drop (s.pc + 3) := by
  simp only [State.codeSize] at h
  rw [List.drop_eq_getElem_cons (by omega), List.drop_eq_getElem_cons (by omega),
    List.drop_eq_getElem_cons (by omega)]
  simp [State.codeWord, h, show s.pc < s.code.length by omega,
    show s.pc + 1 < s.code.length by omega]

theorem step_of_fault {s : State} (h : s.Runs) (hc : s.codeSize ≤ s.pc + 2) :
    step s = .next (s.raise .outOfCodeRange) := by
  simp [step, h.1, h.2, cycle, fetch_of_le hc]

theorem step_of_fetch {s : State} (h : s.Runs) (hc : s.pc + 2 < s.codeSize) :
    step s = exec (decodeTriplet (s.codeWord s.pc) (s.codeWord (s.pc + 1)) (s.codeWord (s.pc + 2))) s := by
  simp [step, h.1, h.2, cycle, fetch_of_lt hc]

theorem step_of_ended {s : State} (h : s.stage = .started) (hr : s.runState ≠ .running) :
    step s = .next s := by
  unfold step
  rw [h]
  cases hs : s.runState with
  | running => exact absurd hs hr
  | halted => rfl
  | failed k => rfl

/-- What a step did, where it gives a next state: the run had ended and nothing changed, the fetch check
failed, or the instruction at pc ran. -/
inductive StepCase (s t : State) : Prop where
  | ended (hs : s.stage = .started) (h : s.runState ≠ .running) (ht : t = s)
  | fetch (h : s.Runs) (hc : s.codeSize ≤ s.pc + 2) (ht : t = s.raise .outOfCodeRange)
  | exec (h : s.Runs) (hc : s.pc + 2 < s.codeSize) (x y z : Operand)
      (hwf : (Instr.subleq x y z).wellFormed = true)
      (hi : decode (s.code.drop s.pc) = .ok (.subleq x y z, s.code.drop (s.pc + 3)))
      (ht : SubleqCase s x y z t)

theorem step_cases {s t : State} (h : step s = .next t) : StepCase s t := by
  cases hs : s.stage with
  | constructed => simp [step, hs] at h
  | loaded => simp [step, hs] at h
  | started =>
    by_cases hr : s.runState = .running
    · have hruns : s.Runs := ⟨hs, hr⟩
      by_cases hc : s.codeSize ≤ s.pc + 2
      · rw [step_of_fault hruns hc] at h
        cases h
        exact .fetch hruns hc rfl
      · rw [step_of_fetch hruns (by omega)] at h
        exact .exec hruns (by omega) _ _ _ (decodeTriplet_wellFormed ..)
          (by rw [drop_pc_eq (by omega)]; rfl) (exec_cases h)
    · rw [step_of_ended hs hr] at h
      cases h
      exact .ended hs hr rfl

/-- No cycles reach the state itself. -/
theorem reaches_zero {s t : State} : s.Reaches 0 t ↔ t = s := by
  constructor
  · intro h
    cases h
    rfl
  · rintro rfl
    rfl

theorem run_next {s u : State} (k : Nat) (h : step s = .next u) :
    Sys2Proof.core.run (k + 1) s = Sys2Proof.core.run k u := by
  have h' : Sys2Proof.core.step s = .next u := h
  exact (Host.Core.run.eq_2 Sys2Proof.core s k).trans (by rw [h'])

theorem run_fault {s : State} {r : Fault} (k : Nat) (h : step s = .fault r) :
    Sys2Proof.core.run (k + 1) s = .fault r := by
  have h' : Sys2Proof.core.step s = .fault r := h
  exact (Host.Core.run.eq_2 Sys2Proof.core s k).trans (by rw [h'])

theorem run_refused {s : State} {r : Refusal} (k : Nat) (h : step s = .refused r) :
    Sys2Proof.core.run (k + 1) s = .refused r := by
  have h' : Sys2Proof.core.step s = .refused r := h
  exact (Host.Core.run.eq_2 Sys2Proof.core s k).trans (by rw [h'])

/-- `k + 1` cycles are one step and `k` more. -/
theorem reaches_succ {s t : State} {k : Nat} :
    s.Reaches (k + 1) t ↔ ∃ u, step s = .next u ∧ u.Reaches k t := by
  unfold State.Reaches
  cases h : step s with
  | next u => rw [run_next k h]; simp
  | fault r => rw [run_fault k h]; simp
  | refused r => rw [run_refused k h]; simp

/-- What every step keeps, every run keeps. -/
theorem reaches_induction {P : State → Prop} (hstep : ∀ s t, P s → step s = .next t → P t) {k : Nat}
    {s t : State} (hs : P s) (h : s.Reaches k t) : P t := by
  induction k generalizing s with
  | zero => exact reaches_zero.mp h ▸ hs
  | succ k ih =>
    obtain ⟨u, hu, hk⟩ := reaches_succ.mp h
    exact ih (hstep s u hs hu) hk

end Sys2Proof.Machine
end

