-- ==== Sys2Proof/Tests/Slice0.lean ====
section
/-! SUPPORT. The model's own tests: the well-formedness smoke, decoding, the spec's vectors (spec 95), and a
witness for every statement that has hypotheses. -/

namespace Sys2Proof.Tests

open Sys2Proof Sys2Proof.Machine

/-! ### Well-formedness: an ill-formed term for each check -/

theorem test_direct_beyond_the_range_is_ill_formed : (Operand.direct (2 ^ 63)).wellFormed = false := by
  decide

theorem test_pointer_cell_zero_is_ill_formed : (Operand.indirect 0).wellFormed = false := by decide

theorem test_pointer_cell_beyond_the_range_is_ill_formed :
    (Operand.indirect (2 ^ 63 + 1)).wellFormed = false := by decide

theorem test_each_slot_is_checked :
    (Instr.subleq (.indirect 0) (.direct 1) (.direct 1)).wellFormed = false ∧
    (Instr.subleq (.direct 1) (.indirect 0) (.direct 1)).wellFormed = false ∧
    (Instr.subleq (.direct 1) (.direct 1) (.indirect 0)).wellFormed = false := by decide

/-! ### Decoding -/

/-- Program 3's first instruction, `subleq *1, 4, 3`, and the word of -5 (spec R80). -/
theorem test_decode_written_out_words :
    decode [0xFFFFFFFFFFFFFFFF#64, 0x0000000000000004#64, 0x0000000000000003#64] =
      .ok (.subleq (.indirect 1) (.direct 4) (.direct 3), []) ∧
    decodeOperand 0xFFFFFFFFFFFFFFFB#64 = .indirect 5 ∧
    encode (.subleq (.indirect 1) (.direct 4) (.indirect 5)) =
      [0xFFFFFFFFFFFFFFFF#64, 0x0000000000000004#64, 0xFFFFFFFFFFFFFFFB#64] := by decide

theorem test_decode_refuses_a_short_image :
    decode [0x1#64, 0x2#64] = .error (.truncated 2) ∧ decode [] = .error (.truncated 0) := by decide

/-- Operand A lies in the low 64 bits of the table's word, C in the high ones. -/
theorem test_table_word_order :
    decodeTableWord 192 (3 * 2 ^ 128 + 2 * 2 ^ 64 + 1) =
      some (.subleq (.direct 1) (.direct 2) (.direct 3)) ∧
    decodeTableWord 8 0x105 = some (.subleq (.direct 5) (.direct 0) (.direct 0)) ∧
    decodeTableWord 200 0 = none := by decide

/-! ### The spec's single-cycle vectors -/

/-- A machine whose loop is running, with `code` placed at `pc`. -/
def machine (ioSize dataSize pc : Nat) (code : List Word) (data : Memory) (ins : List InAnswer)
    (outs : List OutAnswer) : State :=
  { State.reset with
    ioSize := ioSize, dataSize := dataSize, pc := pc, code := List.replicate pc 0#64 ++ code
    data := data, inAnswers := ins, outAnswers := outs }

/-- A row of spec 95 section 2: the state before, and what the row says of the state after. `changes` lists
the data words the row says changed. The error `e` of a row is `⟨7⟩`. -/
structure SpecVector where
  before : State
  runState : RunState
  pc : Nat
  changes : Memory
  trace : List Transaction
  haltValue : Option Word

/-- The step of the row's machine ends as the row says. -/
def SpecVector.holds (v : SpecVector) : Bool :=
  match step v.before with
  | .next t =>
    decide (t.runState = v.runState) && decide (t.pc = v.pc) && decide (t.trace = v.trace) &&
      decide (t.haltValue = v.haltValue) &&
      decide (t.data = v.changes.foldl (fun m e => Memory.write m e.1 e.2) v.before.data)
  | .fault _ => false
  | .refused _ => false

/-- spec 95 section 2.1, memory path and arithmetic. -/
def arithmeticVectors : List SpecVector := [
  ⟨machine 2 10 0 [4, 5, 9] [(4, 2), (5, 7)] [] [],
    .running, 3, [(5, 5)], [], none⟩,  -- V-A1
  ⟨machine 2 10 0 [4, 5, 9] [(4, 7), (5, 7)] [] [],
    .running, 9, [(5, 0)], [], none⟩,  -- V-A2
  ⟨machine 2 10 0 [4, 5, 9] [(4, 9), (5, 7)] [] [],
    .running, 9, [(5, -2)], [], none⟩,  -- V-A3
  ⟨machine 2 10 0 [5, 5, 9] [(5, 123)] [] [],
    .running, 9, [(5, 0)], [], none⟩,  -- V-A4
  ⟨machine 2 10 0 [5, 5, 9] [(5, -9223372036854775808)] [] [],
    .running, 9, [(5, 0)], [], none⟩,  -- V-A5
  ⟨machine 2 10 0 [4, 5, 9] [(4, 1), (5, -9223372036854775808)] [] [],
    .running, 3, [(5, 9223372036854775807)], [], none⟩,  -- V-A6
  ⟨machine 2 10 0 [4, 5, 9] [(4, -1), (5, 9223372036854775807)] [] [],
    .running, 9, [(5, -9223372036854775808)], [], none⟩,  -- V-A7
  ⟨machine 2 10 0 [4, 5, 9] [(4, -3), (5, 4)] [] [],
    .running, 3, [(5, 7)], [], none⟩,  -- V-A8
  ⟨machine 2 10 0 [4, 5, 0] [] [] [],
    .running, 0, [], [], none⟩  -- V-A9
  ]

/-- spec 95 section 2.2, operand resolver. -/
def resolverVectors : List SpecVector := [
  ⟨machine 2 10 0 [-3, 5, 9] [(3, 4), (4, 2), (5, 7)] [] [],
    .running, 3, [(5, 5)], [], none⟩,  -- V-RES1
  ⟨machine 2 10 0 [4, -3, 9] [(3, 5), (4, 2), (5, 7)] [] [],
    .running, 3, [(5, 5)], [], none⟩,  -- V-RES2
  ⟨machine 2 10 0 [4, 5, -3] [(3, 42), (4, 9), (5, 7)] [] [],
    .running, 42, [(5, -2)], [], none⟩,  -- V-RES3
  ⟨machine 2 10 0 [4, 5, -3] [(3, 1000), (4, 9), (5, 7)] [] [],
    .running, 1000, [(5, -2)], [], none⟩,  -- V-RES4
  ⟨machine 2 10 0 [-3, 5, 9] [(3, -3), (4, 2), (5, 7)] [] [],
    .failed .doubleIndirect, 0, [], [], none⟩,  -- V-RES5
  ⟨machine 2 10 0 [4, -3, 9] [(3, -1), (4, 2), (5, 7)] [] [],
    .failed .doubleIndirect, 0, [], [], none⟩,  -- V-RES6
  ⟨machine 2 10 0 [4, 5, -3] [(3, -7), (4, 2), (5, 7)] [] [],
    .failed .doubleIndirect, 0, [], [], none⟩,  -- V-RES7
  ⟨machine 2 10 0 [-3, 5, 9] [(3, 10), (4, 2), (5, 7)] [] [],
    .failed .outOfMemoryRange, 0, [], [], none⟩,  -- V-RES8
  ⟨machine 2 10 0 [4, -3, 9] [(3, 12), (4, 2), (5, 7)] [] [],
    .failed .outOfMemoryRange, 0, [], [], none⟩,  -- V-RES9
  ⟨machine 2 10 0 [-10, 5, 9] [(4, 2), (5, 7)] [] [],
    .failed .dataIndexOutOfRange, 0, [], [], none⟩,  -- V-RES10
  ⟨machine 2 10 0 [4, 5, -9223372036854775808] [(4, 2), (5, 7)] [] [],
    .failed .dataIndexOutOfRange, 0, [], [], none⟩,  -- V-RES11
  ⟨machine 2 10 0 [-1, 5, 9] [(5, 7)] [.returns 3 none] [],
    .running, 3, [(5, 4)], [.input 0 (.value 3)], none⟩,  -- V-RES12
  ⟨machine 2 10 0 [-3, -3, -3] [(3, 5), (5, 9)] [] [],
    .running, 5, [(5, 0)], [], none⟩,  -- V-RES13
  ⟨machine 2 10 0 [50, 5, 9] [] [] [],
    .failed .dataIndexOutOfRange, 0, [], [], none⟩,  -- V-RES14
  ⟨machine 2 10 0 [4, 50, 9] [] [] [],
    .failed .dataIndexOutOfRange, 0, [], [], none⟩  -- V-RES15
  ]

/-- spec 95 section 2.3, ports. -/
def portVectors : List SpecVector := [
  ⟨machine 2 10 0 [1, 5, 9] [(5, 7)] [.returns 3 none] [],
    .running, 3, [(5, 4)], [.input 1 (.value 3)], none⟩,  -- V-I1
  ⟨machine 2 10 0 [1, 5, 9] [(5, 7)] [.returns (-3) none] [],
    .running, 3, [(5, 10)], [.input 1 (.value (-3))], none⟩,  -- V-I2
  ⟨machine 2 10 0 [1, 5, 9] [(5, 7)] [.returns 0 (some ⟨7⟩)] [],
    .failed (.handlerError ⟨7⟩), 0, [], [.input 1 (.error ⟨7⟩)], none⟩,  -- V-I3
  ⟨machine 2 10 0 [4, 1, 9] [(4, -5), (5, 7)] [] [.returns false none],
    .running, 3, [], [.output (-5) 1 .proceed], none⟩,  -- V-I4
  ⟨machine 2 10 0 [4, 0, 9] [(4, 5), (5, 7)] [] [.returns true none],
    .halted, 0, [], [.output 5 0 .halt], (some (-5))⟩,  -- V-I5
  ⟨machine 2 10 0 [4, 0, 9] [(4, -9223372036854775808), (5, 7)] [] [.returns true none],
    .halted, 0, [], [.output (-9223372036854775808) 0 .halt], (some (-9223372036854775808))⟩,  -- V-I6
  ⟨machine 2 10 0 [4, 1, 9] [(4, 5), (5, 7)] [] [.returns true (some ⟨7⟩)],
    .failed (.handlerError ⟨7⟩), 0, [], [.output 5 1 (.error ⟨7⟩)], none⟩,  -- V-I7
  ⟨machine 2 10 0 [1, 1, 9] [] [.returns 65 none] [.returns false none],
    .running, 3, [], [.input 1 (.value 65), .output 65 1 .proceed], none⟩,  -- V-I8
  ⟨machine 2 10 0 [1, 1, 9] [] [.returns 0 (some ⟨7⟩)] [],
    .failed (.handlerError ⟨7⟩), 0, [], [.input 1 (.error ⟨7⟩)], none⟩,  -- V-I9
  ⟨machine 2 10 0 [4, 1, 9] [(4, 5), (5, 7)] [] [.returns true none],
    .halted, 0, [], [.output 5 1 .halt], (some (-5))⟩,  -- V-I10
  ⟨machine 2 10 0 [4, -3, 9] [(3, 1), (4, 5), (5, 7)] [] [.returns false none],
    .running, 3, [], [.output 5 1 .proceed], none⟩  -- V-I11
  ]

/-- spec 95 section 2.4, fetch and pc. -/
def fetchVectors : List SpecVector := [
  ⟨machine 2 10 3 [0, 0] [] [] [],
    .failed .outOfCodeRange, 3, [], [], none⟩,  -- V-P1
  ⟨machine 2 10 3 [4, 5, 9] [(4, 1), (5, 7)] [] [],
    .running, 6, [(5, 6)], [], none⟩,  -- V-P2
  ⟨machine 2 10 1 [4, 5, 9] [(4, 1), (5, 7)] [] [],
    .running, 4, [(5, 6)], [], none⟩,  -- V-P3
  ⟨machine 2 10 0 [] [] [] [],
    .failed .outOfCodeRange, 0, [], [], none⟩,  -- V-P4
  ⟨machine 2 10 0 [4, 3, -3] [(3, 6), (4, 6)] [] [],
    .running, 6, [(3, 0)], [], none⟩,  -- V-P5
  ⟨machine 2 10 0 [-9223372036854775808, 0] [] [] [],
    .failed .outOfCodeRange, 0, [], [], none⟩  -- V-P6
  ]

/-- spec 95 section 2.5, fault priority and degenerate configurations. -/
def faultVectors : List SpecVector := [
  ⟨machine 2 10 0 [-3, -4, 9] [(3, -1), (4, 12), (5, 7)] [] [],
    .failed .doubleIndirect, 0, [], [], none⟩,  -- V-F1
  ⟨machine 2 10 0 [5, -3, -4] [(3, 12), (4, -1), (5, 7)] [] [],
    .failed .outOfMemoryRange, 0, [], [], none⟩,  -- V-F2
  ⟨machine 2 10 0 [4, 1, -3] [(3, -1), (4, 5), (5, 7)] [] [],
    .failed .doubleIndirect, 0, [], [], none⟩,  -- V-F3
  ⟨machine 2 10 0 [1, 50, 9] [] [.returns 7 none] [],
    .failed .dataIndexOutOfRange, 0, [], [.input 1 (.value 7)], none⟩,  -- V-F4
  ⟨machine 0 0 0 [-1, 0, 0] [] [] [],
    .failed .dataIndexOutOfRange, 0, [], [], none⟩,  -- V-F5
  ⟨machine 0 0 0 [0, 0, 0] [] [] [],
    .failed .dataIndexOutOfRange, 0, [], [], none⟩,  -- V-F6
  ⟨machine 2 2 0 [1, 0, 0] [] [.returns 4 none] [.returns true none],
    .halted, 0, [], [.input 1 (.value 4), .output 4 0 .halt], (some (-4))⟩  -- V-F7
  ]

/-- Spec 95 sections 2.1 and 2.2. -/
theorem test_subleq_in_memory_as_the_vectors_say :
    (arithmeticVectors ++ resolverVectors).all SpecVector.holds = true := by decide

/-- Spec 95 sections 2.3 to 2.5. -/
theorem test_subleq_at_ports_and_faults_as_the_vectors_say :
    (portVectors ++ fetchVectors ++ faultVectors).all SpecVector.holds = true := by decide

/-! ### The host's commands (spec 95 section 3) -/

/-- Does the command succeed with a state that `p` holds of? -/
def gives (o : Host.Outcome State Fault Refusal) (p : State → Bool) : Bool :=
  match o with
  | .next t => p t
  | .fault _ => false
  | .refused _ => false

/-- Is the command refused for the reason `r`? -/
def refuses (o : Host.Outcome State Fault Refusal) (r : Refusal) : Bool :=
  match o with
  | .next _ => false
  | .fault _ => false
  | .refused r' => decide (r' = r)

/-- V-L1 to V-L3, V-L5 to V-L7. -/
theorem test_construct_and_load_as_the_vectors_say :
    refuses (construct 3 2 [] []) .sizesRefused = true ∧
    refuses (construct (-1) 5 [] []) .sizesRefused = true ∧
    gives (construct 0 0 [] []) (fun s => decide (s.codeSize = 0) && decide (s.data = [])) = true ∧
    refuses (boot 2 6 [] [] (some ⟨[], [1, 2, 3, 4, 5], [], []⟩)) .dataImageTooLong = true ∧
    gives (boot 2 6 [] [] (some ⟨[], [1, 2, 3, 4], [], []⟩))
      (fun s => decide (s.data = [(2, 1), (3, 2), (4, 3), (5, 4)])) = true ∧
    gives (boot 2 6 [] [] none)
      (fun s => gives (step s) fun t => decide (t.runState = .failed .outOfCodeRange)) = true := by
  decide

/-- V-L4, V-L8 and V-L9. -/
theorem test_one_load_one_run :
    gives (boot 2 6 [] [] (some ⟨[5, 1, 3], [7, 8], [], []⟩)) (fun s =>
      decide (s.data = [(2, 7), (3, 8)]) && decide (s.codeSize = 3) && decide (s.pc = 0) &&
      decide (s.haltValue = none) && refuses (startRun s) .secondRun &&
      refuses (load [] [] [] [] s) .loadAfterRun) = true ∧
    gives (construct 2 6 [] []) (fun s => gives (load [5, 1, 3] [7, 8] [] [] s)
      fun t => refuses (load [5, 1, 3] [7, 8] [] [] t) .secondLoad) = true := by decide

/-- Reset is the machine constructed with IO_SIZE 0 and DATA_SIZE `2^63 - 1`, no load, at the start of Run. -/
theorem test_reset_is_a_booted_machine :
    gives (boot 0 (2 ^ 63 - 1) [] [] none) (fun s => decide (s = State.reset)) = true := by decide

/-- The all-zero word of the opcode table is fetched and runs as the first instruction after reset. -/
theorem test_first_instruction_after_reset :
    gives (step (State.reset.withFetchWord 192 0))
      (fun t => decide (t.runState = .running) && decide (t.pc = 0)) = true := by decide

/-! ### Witnesses: for every statement with hypotheses, states and operands that meet them -/

/-- V-A1. -/
def memoryCase : State := machine 2 10 0 [4, 5, 9] [(4, 2), (5, 7)] [] []

/-- The pointer cells of the corner cases: 3 holds 9, 4 holds 10, 5 holds -1, 9 holds 9. -/
def pointerCase : State := machine 2 10 0 [4, 5, 9] [(3, 9), (4, 10), (5, -1), (9, 9)] [] []

/-- A machine whose next input is 3. -/
def inputCase : State := machine 2 10 0 [1, 5, 9] [(5, 7)] [.returns 3 none] []

/-- A machine whose next input is an error. -/
def inputErrorCase : State := machine 2 10 0 [1, 5, 9] [(5, 7)] [.returns 0 (some ⟨7⟩)] []

/-- A machine whose next output answer is Continue. -/
def continueCase : State := machine 2 10 0 [4, 1, 9] [(4, 5)] [] [.returns false none]

/-- A machine whose next output answer is Halt. -/
def haltCase : State := machine 2 10 0 [4, 0, 9] [(4, 5)] [] [.returns true none]

/-- A machine whose next output answer is an error. -/
def outputErrorCase (haltRequested : Bool) : State :=
  machine 2 10 0 [4, 1, 9] [(4, 5)] [] [.returns haltRequested (some ⟨7⟩)]

/-- A machine whose next input is 65 and whose next output answer is Continue. -/
def echoCase : State := machine 2 10 0 [1, 1, 9] [] [.returns 65 none] [.returns false none]

/-- A machine whose next input is 65 and whose next output answer is Halt. -/
def echoHaltCase : State := machine 2 10 0 [1, 1, 9] [] [.returns 65 none] [.returns true none]

/-- A machine whose handlers never return. -/
def silentCase : State := machine 2 10 0 [1, 1, 9] [] [.never] [.never]

/-- A machine whose next input is 65 and whose output handler never returns. -/
def inputThenSilentCase : State := machine 2 10 0 [1, 1, 9] [] [.returns 65 none] [.never]

/-- A machine that has halted. -/
def haltedCase : State := haltCase.halt (-5)

/-- A machine that has failed. -/
def failedCase : State := haltCase.raise .doubleIndirect

/-- `DecodeEncodeAgree`: the ends of the operand ranges. -/
theorem witness_decodeEncodeAgree :
    (Instr.subleq (.direct 0) (.direct (2 ^ 63 - 1)) (.indirect 1)).wellFormed = true ∧
    (Instr.subleq (.indirect (2 ^ 63)) (.direct 1) (.direct 1)).wellFormed = true := by decide

/-- `SignBitSelectsMode`: both signs, at the ends of their ranges. -/
theorem witness_signBitSelectsMode :
    0 ≤ (0x0#64).toInt ∧ 0 ≤ (0x7FFFFFFFFFFFFFFF#64).toInt ∧ (0x8000000000000000#64).toInt < 0 ∧
    (0xFFFFFFFFFFFFFFFF#64).toInt < 0 := by decide

/-- `StepRunsDecodedInstruction`. -/
theorem witness_stepRunsDecodedInstruction :
    memoryCase.Runs ∧ (Instr.subleq (.direct 4) (.direct 5) (.direct 9)).wellFormed = true ∧
    decode (memoryCase.code.drop memoryCase.pc) =
      .ok (.subleq (.direct 4) (.direct 5) (.direct 9), []) := by decide

/-- `FetchCheckThenFetch`: `pc + 2 = CODE_SIZE` and `pc + 2 = CODE_SIZE - 1`. -/
theorem witness_fetchCheckThenFetch :
    (machine 2 10 3 [0, 0] [] [] []).Runs ∧
    (machine 2 10 3 [0, 0] [] [] []).codeSize = (machine 2 10 3 [0, 0] [] [] []).pc + 2 ∧
    memoryCase.Runs ∧ memoryCase.pc + 2 < memoryCase.codeSize ∧
    memoryCase.codeSize = memoryCase.pc + 3 := by decide

/-- `PlacedWordRuns`. -/
theorem witness_placedWordRuns :
    decodeTableWord 192 0 = some (.subleq (.direct 0) (.direct 0) (.direct 0)) := by decide

/-- `EndedRunsStay`: a halted and a failed machine. -/
theorem witness_endedRunsStay :
    haltedCase.stage = .started ∧ haltedCase.runState ≠ .running ∧
    failedCase.stage = .started ∧ failedCase.runState ≠ .running := by decide

/-- `ResolverFollowsTheRules`: every clause, with the cell and the pointer at the bound 10. -/
theorem witness_resolverFollowsTheRules :
    0 ≤ (0#64).toInt ∧
    ((-10 : Word).toInt < 0 ∧ (pointerCase.dataSize : Int) ≤ -(-10 : Word).toInt) ∧
    ((9 : Nat) : Int) = -(-9 : Word).toInt ∧ 0 < 9 ∧ 9 < pointerCase.dataSize ∧
    (pointerCase.dataWord 5).toInt < 0 ∧
    (Slot.a ≠ .c ∧ (pointerCase.dataSize : Int) ≤ (pointerCase.dataWord 4).toInt) ∧
    (0 ≤ (pointerCase.dataWord 9).toInt ∧ (pointerCase.dataWord 9).toInt < pointerCase.dataSize) ∧
    (0 ≤ (pointerCase.dataWord 4).toInt ∧ Slot.c = .c) := by decide

/-- `IndirectionProperty`: the greatest V for slots A and B, and a greater one for C. -/
theorem witness_indirectionProperty :
    pointerCase.dataSize ≤ Config.maxIndex ∧ 1 ≤ 9 ∧ 9 < pointerCase.dataSize ∧
    0 ≤ (pointerCase.dataWord 9).toInt ∧ (pointerCase.dataWord 9).toInt < pointerCase.dataSize ∧
    0 ≤ (pointerCase.dataWord 4).toInt ∧ (pointerCase.dataSize : Int) ≤ (pointerCase.dataWord 4).toInt := by
  decide

/-- `DoubleIndirectionAlwaysFails`: a negative pointer in each slot, the earlier slots resolving. -/
theorem witness_doubleIndirectionAlwaysFails :
    5 < pointerCase.dataSize ∧ (pointerCase.dataWord 5).toInt < 0 ∧
    resolve pointerCase .a (.indirect 9) = .ok 9 ∧ resolve pointerCase .b (.direct 4) = .ok 4 := by
  decide

/-- `LeastWordNeverResolves`: the largest machine. -/
theorem witness_leastWordNeverResolves : State.reset.dataSize ≤ Config.maxIndex := by decide

/-- `PrefixPointersResolveToZero`. -/
theorem witness_prefixPointersResolveToZero :
    (∃ s, boot 2 6 [] [] (some ⟨[5, 1, 3], [7, 8], [], []⟩) = .next s ∧ 1 < s.ioSize) ∧
    memoryCase.Inv ∧ (∃ t, step memoryCase = .next t) ∧ 1 < memoryCase.ioSize :=
  ⟨⟨_, rfl, by decide⟩, by decide, ⟨_, rfl⟩, by decide⟩

/-- `ResolutionFaultsInOrder`: each slot failing, the earlier ones resolving. -/
theorem witness_resolutionFaultsInOrder :
    resolve pointerCase .a (.indirect 4) = .error .outOfMemoryRange ∧
    resolve pointerCase .a (.direct 4) = .ok 4 ∧
    resolve pointerCase .b (.indirect 10) = .error .dataIndexOutOfRange ∧
    resolve pointerCase .b (.direct 4) = .ok 4 ∧
    resolve pointerCase .c (.indirect 5) = .error .doubleIndirect := by decide

/-- `FaultInCEndsTheCycle`: with B at an I/O address, both kinds. -/
theorem witness_faultInCEndsTheCycle :
    resolve pointerCase .a (.direct 1) = .ok 1 ∧ resolve pointerCase .b (.direct 0) = .ok 0 ∧
    resolve pointerCase .c (.indirect 5) = .error .doubleIndirect ∧
    resolve pointerCase .c (.indirect 10) = .error .dataIndexOutOfRange := by decide

/-- `SourceSelectorRule`: its four clauses, at the addresses 1, 2, 9 and 10 where they meet. -/
theorem witness_sourceSelectorRule :
    (resolveAll inputCase (.direct 1) (.direct 5) (.direct 9) = .ok ⟨1, 5, 9⟩ ∧ 1 < inputCase.ioSize ∧
      inputCase.inAnswer 1 = .returns 3 none) ∧
    (resolveAll inputErrorCase (.direct 1) (.direct 5) (.direct 9) = .ok ⟨1, 5, 9⟩ ∧
      1 < inputErrorCase.ioSize ∧ inputErrorCase.inAnswer 1 = .returns 0 (some ⟨7⟩)) ∧
    (resolveAll memoryCase (.direct 2) (.direct 5) (.direct 9) = .ok ⟨2, 5, 9⟩ ∧
      memoryCase.ioSize ≤ 2 ∧ 9 < memoryCase.dataSize) ∧
    (resolveAll memoryCase (.direct 10) (.direct 5) (.direct 9) = .ok ⟨10, 5, 9⟩ ∧
      memoryCase.ioSize ≤ 10 ∧ memoryCase.dataSize ≤ 10) := by decide

/-- `SubleqInMemoryCompletes`: direct operands, and an indirect one, at the ends 2 and 9 of ordinary
memory. -/
theorem witness_subleqInMemoryCompletes :
    memoryCase.Inv ∧ resolveAll memoryCase (.direct 2) (.direct 9) (.direct 9) = .ok ⟨2, 9, 9⟩ ∧
    memoryCase.ioSize ≤ 2 ∧ 9 < memoryCase.dataSize ∧
    pointerCase.Inv ∧ resolveAll pointerCase (.indirect 3) (.indirect 9) (.indirect 4) = .ok ⟨9, 9, 10⟩ ∧
    pointerCase.ioSize ≤ 9 ∧ 9 < pointerCase.dataSize := by decide

/-- `MemoryPathRule`: B at the last data word and just beyond it, A from memory and from the port. -/
theorem witness_memoryPathRule :
    memoryCase.Inv ∧ inputCase.Inv ∧
    resolveAll memoryCase (.direct 4) (.direct 9) (.direct 9) = .ok ⟨4, 9, 9⟩ ∧
    sourceSelect memoryCase 4 = .value 2 memoryCase ∧
    memoryCase.ioSize ≤ 9 ∧ 9 < memoryCase.dataSize ∧
    resolveAll inputCase (.direct 1) (.direct 10) (.direct 9) = .ok ⟨1, 10, 9⟩ ∧
    sourceSelect inputCase 1 = .value 3 (inputCase.recordIn 1 (.value 3)) ∧
    inputCase.ioSize ≤ 10 ∧ inputCase.dataSize ≤ 10 :=
  ⟨by decide, by decide, rfl, rfl, by decide, by decide, rfl, rfl, by decide, by decide⟩

/-- `OutputContinueAdvancesByThree`: the last I/O address, A from memory and from the port. -/
theorem witness_outputContinueAdvancesByThree :
    resolveAll continueCase (.direct 4) (.direct 1) (.direct 9) = .ok ⟨4, 1, 9⟩ ∧
    sourceSelect continueCase 4 = .value (continueCase.dataWord 4) continueCase ∧
    1 < continueCase.ioSize ∧
    continueCase.outAnswer (continueCase.dataWord 4) 1 = .returns false none ∧
    resolveAll echoCase (.direct 1) (.direct 1) (.direct 9) = .ok ⟨1, 1, 9⟩ ∧
    sourceSelect echoCase 1 = .value 65 (echoCase.recordIn 1 (.value 65)) ∧ 1 < echoCase.ioSize ∧
    (echoCase.recordIn 1 (.value 65)).outAnswer 65 1 = .returns false none :=
  ⟨by decide, rfl, by decide, by decide, by decide, rfl, by decide, by decide⟩

/-- `OutputHaltStopsTheLoop`. -/
theorem witness_outputHaltStopsTheLoop :
    resolveAll haltCase (.direct 4) (.direct 0) (.direct 9) = .ok ⟨4, 0, 9⟩ ∧
    sourceSelect haltCase 4 = .value (haltCase.dataWord 4) haltCase ∧ 0 < haltCase.ioSize ∧
    haltCase.outAnswer (haltCase.dataWord 4) 0 = .returns true none ∧
    haltCase.stage = .started := ⟨by decide, rfl, by decide, by decide, by decide⟩

/-- `OutputErrorFailsTheRun`: with and without a halt request. -/
theorem witness_outputErrorFailsTheRun :
    resolveAll (outputErrorCase true) (.direct 4) (.direct 1) (.direct 9) = .ok ⟨4, 1, 9⟩ ∧
    sourceSelect (outputErrorCase true) 4 =
      .value ((outputErrorCase true).dataWord 4) (outputErrorCase true) ∧
    1 < (outputErrorCase true).ioSize ∧
    (outputErrorCase true).outAnswer ((outputErrorCase true).dataWord 4) 1 = .returns true (some ⟨7⟩) ∧
    (outputErrorCase false).outAnswer ((outputErrorCase false).dataWord 4) 1 =
      .returns false (some ⟨7⟩) := ⟨by decide, rfl, by decide, by decide, by decide⟩

/-- `InputThenOutput`: both clauses. -/
theorem witness_inputThenOutput :
    resolveAll echoCase (.direct 1) (.direct 1) (.direct 9) = .ok ⟨1, 1, 9⟩ ∧ 1 < echoCase.ioSize ∧
    echoCase.inAnswer 1 = .returns 65 none ∧
    (echoCase.recordIn 1 (.value 65)).outAnswer 65 1 = .returns false none ∧
    resolveAll echoHaltCase (.direct 1) (.direct 1) (.direct 9) = .ok ⟨1, 1, 9⟩ ∧
    echoHaltCase.inAnswer 1 = .returns 65 none ∧
    (echoHaltCase.recordIn 1 (.value 65)).outAnswer 65 1 = .returns true none := by decide

/-- `BoundsAreCheckedAtTheAccess`: A just beyond, B just beyond, B just beyond after an input. -/
theorem witness_boundsAreCheckedAtTheAccess :
    memoryCase.Inv ∧ inputCase.Inv ∧
    (resolveAll memoryCase (.direct 10) (.direct 5) (.direct 9) = .ok ⟨10, 5, 9⟩ ∧
      memoryCase.dataSize ≤ 10) ∧
    (resolveAll memoryCase (.direct 9) (.direct 10) (.direct 9) = .ok ⟨9, 10, 9⟩ ∧
      9 < memoryCase.dataSize ∧ memoryCase.ioSize ≤ 9 ∧ memoryCase.dataSize ≤ 10) ∧
    (resolveAll inputCase (.direct 1) (.direct 10) (.direct 9) = .ok ⟨1, 10, 9⟩ ∧
      1 < inputCase.ioSize ∧ inputCase.dataSize ≤ 10 ∧
      inputCase.inAnswer 1 = .returns 3 none) := by decide

/-- `SameLocationClearsAndBranches`: in memory, and at the ports. -/
theorem witness_sameLocationClearsAndBranches :
    (memoryCase.Inv ∧ resolveAll memoryCase (.direct 5) (.direct 5) (.direct 9) = .ok ⟨5, 5, 9⟩ ∧
      memoryCase.ioSize ≤ 5 ∧ 5 < memoryCase.dataSize) ∧
    (echoCase.Inv ∧ resolveAll echoCase (.direct 1) (.direct 1) (.direct 9) = .ok ⟨1, 1, 9⟩ ∧
      1 < echoCase.ioSize ∧ echoCase.inAnswer 1 = .returns 65 none ∧
      ∃ t, exec (.subleq (.direct 1) (.direct 1) (.direct 9)) echoCase = .next t) :=
  ⟨by decide, by decide, rfl, by decide, by decide, _, rfl⟩

/-- `PointerWriteActsFromTheNextCycle`: B writes C's pointer cell (V-P5), A's (cell 9, which points to
itself) and B's own (the same). -/
theorem witness_pointerWriteActsFromTheNextCycle :
    (machine 2 10 0 [4, 3, -3] [(3, 6), (4, 6)] [] []).Inv ∧
    resolveAll (machine 2 10 0 [4, 3, -3] [(3, 6), (4, 6)] [] []) (.direct 4) (.direct 3) (.indirect 3) =
      .ok ⟨4, 3, 6⟩ ∧
    pointerCase.Inv ∧
    resolveAll pointerCase (.indirect 9) (.indirect 9) (.direct 0) = .ok ⟨9, 9, 0⟩ ∧
    pointerCase.ioSize ≤ 9 ∧ 9 < pointerCase.dataSize := by decide

/-- `ArithmeticWraps`: a difference at each end of the range. -/
theorem witness_arithmeticWraps :
    -2 ^ 63 ≤ (0x8000000000000000#64).toInt - (0#64).toInt ∧
    (0x7FFFFFFFFFFFFFFF#64).toInt - (0#64).toInt < 2 ^ 63 := by decide

/-- `SubleqIdioms`: a word of 0 for jmp, the ports for out, halt, in and echo, `k = 1`. -/
theorem witness_subleqIdioms :
    (memoryCase.Inv ∧ memoryCase.ioSize ≤ 2 ∧ 2 < memoryCase.dataSize ∧ memoryCase.dataWord 2 = 0) ∧
    (continueCase.Inv ∧ 1 < continueCase.ioSize ∧
      continueCase.outAnswer (continueCase.dataWord 4) 1 = .returns false none) ∧
    (haltCase.Inv ∧ 1 ≤ haltCase.ioSize ∧ resolve haltCase .c (.direct 9) = .ok 9 ∧
      haltCase.outAnswer (haltCase.dataWord 4) 0 = .returns true none) ∧
    (inputCase.Inv ∧ inputCase.inAnswer 1 = .returns 3 none) ∧
    (echoCase.Inv ∧ echoCase.inAnswer 1 = .returns 65 none ∧
      (echoCase.recordIn 1 (.value 65)).outAnswer 65 1 = .returns false none) := by decide

/-- `SubleqFrame`: a store, an output, a failed resolution. -/
theorem witness_subleqFrame :
    (∃ t, exec (.subleq (.direct 4) (.direct 5) (.direct 9)) memoryCase = .next t ∧
      resolveAll memoryCase (.direct 4) (.direct 5) (.direct 9) = .ok ⟨4, 5, 9⟩) ∧
    (∃ t, exec (.subleq (.direct 4) (.direct 1) (.direct 9)) continueCase = .next t ∧
      resolveAll continueCase (.direct 4) (.direct 1) (.direct 9) = .ok ⟨4, 1, 9⟩ ∧
      1 < continueCase.ioSize) ∧
    (∃ t, exec (.subleq (.indirect 5) (.direct 4) (.direct 9)) pointerCase = .next t ∧
      resolveAll pointerCase (.indirect 5) (.direct 4) (.direct 9) = .error .doubleIndirect) :=
  ⟨⟨_, rfl, rfl⟩, ⟨_, rfl, rfl, by decide⟩, ⟨_, rfl, rfl⟩⟩

/-- `EndingCyclesWriteNothing`: a failing, a halting and an out-of-range cycle. -/
theorem witness_endingCyclesWriteNothing :
    ((outputErrorCase true).Runs ∧ ∃ t, step (outputErrorCase true) = .next t ∧
      t.runState = .failed (.handlerError ⟨7⟩)) ∧
    (haltCase.Runs ∧ ∃ t, step haltCase = .next t ∧ t.runState = .halted) ∧
    ((machine 2 10 3 [0, 0] [] [] []).Runs ∧ ∃ t, step (machine 2 10 3 [0, 0] [] [] []) = .next t ∧
      t.runState = .failed .outOfCodeRange) :=
  ⟨⟨by decide, _, rfl, rfl⟩, ⟨by decide, _, rfl, rfl⟩, ⟨by decide, _, rfl, rfl⟩⟩

/-- `FiveOutcomesOfPc`: one machine for each outcome (fault, Halt, Continue, no branch, branch). -/
theorem witness_fiveOutcomesOfPc :
    (inputErrorCase.Inv ∧ inputErrorCase.Runs ∧ ∃ t, step inputErrorCase = .next t) ∧
    (haltCase.Inv ∧ haltCase.Runs ∧ ∃ t, step haltCase = .next t) ∧
    (continueCase.Inv ∧ continueCase.Runs ∧ ∃ t, step continueCase = .next t) ∧
    (memoryCase.Inv ∧ memoryCase.Runs ∧ ∃ t, step memoryCase = .next t) ∧
    (pointerCase.Inv ∧ pointerCase.Runs ∧ ∃ t, step pointerCase = .next t) :=
  ⟨⟨by decide, by decide, _, rfl⟩, ⟨by decide, by decide, _, rfl⟩, ⟨by decide, by decide, _, rfl⟩,
    ⟨by decide, by decide, _, rfl⟩, ⟨by decide, by decide, _, rfl⟩⟩

/-- `RunsNeverWriteCodeOrSizes` and the second part of `TraceGrowsInProgramOrder`. -/
theorem witness_runs : (∃ t, echoCase.Reaches 1 t) ∧ memoryCase.Reaches 0 memoryCase :=
  ⟨⟨_, rfl⟩, rfl⟩

/-- `SymbolTablesNeverConsulted`: a step, a stop and a refusal. -/
theorem witness_symbolTablesNeverConsulted :
    (∃ t, step memoryCase = .next t) ∧ step silentCase = .fault (.inputNeverAnswered 1) ∧
    step { memoryCase with stage := .loaded } = .refused .runNotIssued :=
  ⟨⟨_, rfl⟩, rfl, rfl⟩

/-- `InputTransactionExactlyOnce`: an input, none, a failed resolution, a failed fetch. -/
theorem witness_inputTransactionExactlyOnce :
    (∃ t, exec (.subleq (.direct 1) (.direct 5) (.direct 9)) inputCase = .next t ∧
      resolveAll inputCase (.direct 1) (.direct 5) (.direct 9) = .ok ⟨1, 5, 9⟩ ∧ 1 < inputCase.ioSize) ∧
    (∃ t, exec (.subleq (.direct 2) (.direct 5) (.direct 9)) memoryCase = .next t ∧
      resolveAll memoryCase (.direct 2) (.direct 5) (.direct 9) = .ok ⟨2, 5, 9⟩ ∧
      memoryCase.ioSize ≤ 2) ∧
    (∃ t, exec (.subleq (.direct 1) (.direct 5) (.indirect 5)) pointerCase = .next t ∧
      resolveAll pointerCase (.direct 1) (.direct 5) (.indirect 5) = .error .doubleIndirect) ∧
    ((machine 2 10 3 [0, 0] [] [] []).Runs ∧
      (machine 2 10 3 [0, 0] [] [] []).codeSize ≤ (machine 2 10 3 [0, 0] [] [] []).pc + 2 ∧
      ∃ t, step (machine 2 10 3 [0, 0] [] [] []) = .next t) :=
  ⟨⟨_, rfl, rfl, by decide⟩, ⟨_, rfl, rfl, by decide⟩, ⟨_, rfl, rfl⟩, by decide, by decide, _, rfl⟩

/-- `OutputTransactionExactlyOnce`: an output, none, a failed source selector. -/
theorem witness_outputTransactionExactlyOnce :
    (∃ t, resolveAll continueCase (.direct 4) (.direct 1) (.direct 9) = .ok ⟨4, 1, 9⟩ ∧
      exec (.subleq (.direct 4) (.direct 1) (.direct 9)) continueCase = .next t ∧
      sourceSelect continueCase 4 = .value 5 continueCase ∧ 1 < continueCase.ioSize) ∧
    (∃ t, resolveAll memoryCase (.direct 4) (.direct 2) (.direct 9) = .ok ⟨4, 2, 9⟩ ∧
      exec (.subleq (.direct 4) (.direct 2) (.direct 9)) memoryCase = .next t ∧
      sourceSelect memoryCase 4 = .value 2 memoryCase ∧ memoryCase.ioSize ≤ 2) ∧
    (∃ t, resolveAll memoryCase (.direct 10) (.direct 1) (.direct 9) = .ok ⟨10, 1, 9⟩ ∧
      exec (.subleq (.direct 10) (.direct 1) (.direct 9)) memoryCase = .next t ∧
      sourceSelect memoryCase 10 = .failed .dataIndexOutOfRange memoryCase) :=
  ⟨⟨_, rfl, rfl, rfl, by decide⟩, ⟨_, rfl, rfl, rfl, by decide⟩, ⟨_, rfl, rfl, rfl⟩⟩

/-- `TraceGrowsInProgramOrder`, `StepKeepsTheInvariant`: a cycle with two transactions. -/
theorem witness_traceGrowsInProgramOrder : echoCase.Inv ∧ ∃ t, step echoCase = .next t ∧
    t.trace = [.input 1 (.value 65), .output 65 1 .proceed] := ⟨by decide, _, rfl, rfl⟩

/-- `OnlyAHaltAnswerHalts`. -/
theorem witness_onlyAHaltAnswerHalts :
    haltCase.Runs ∧ ∃ t, step haltCase = .next t ∧ t.runState = .halted := ⟨by decide, _, rfl, rfl⟩

/-- `WithoutIoNoRunHalts`: V-S1 (b), two cycles of it. -/
theorem witness_withoutIoNoRunHalts :
    (machine 0 10 0 [-1, 1, 6, 0, 0, 0] [(1, 5)] [] []).ioSize = 0 ∧
    (machine 0 10 0 [-1, 1, 6, 0, 0, 0] [(1, 5)] [] []).stage = .started ∧
    (machine 0 10 0 [-1, 1, 6, 0, 0, 0] [(1, 5)] [] []).runState ≠ .halted ∧
    ∃ t, (machine 0 10 0 [-1, 1, 6, 0, 0, 0] [(1, 5)] [] []).Reaches 2 t :=
  ⟨by decide, by decide, by decide, _, rfl⟩

/-- `SilentHostIsStuck`: the input port, the output port with A in memory and after an input. -/
theorem witness_silentHostIsStuck :
    (resolveAll silentCase (.direct 1) (.direct 1) (.direct 9) = .ok ⟨1, 1, 9⟩ ∧ 1 < silentCase.ioSize ∧
      silentCase.inAnswer 1 = .never) ∧
    (resolveAll silentCase (.direct 2) (.direct 1) (.direct 9) = .ok ⟨2, 1, 9⟩ ∧
      sourceSelect silentCase 2 = .value 0 silentCase ∧ silentCase.outAnswer 0 1 = .never) ∧
    (resolveAll inputThenSilentCase (.direct 1) (.direct 1) (.direct 9) = .ok ⟨1, 1, 9⟩ ∧
      sourceSelect inputThenSilentCase 1 = .value 65 (inputThenSilentCase.recordIn 1 (.value 65)) ∧
      1 < inputThenSilentCase.ioSize ∧
      (inputThenSilentCase.recordIn 1 (.value 65)).outAnswer 65 1 = .never) :=
  ⟨by decide, ⟨rfl, rfl, rfl⟩, ⟨rfl, rfl, by decide, rfl⟩⟩

/-- `ConstructionRule`: the ends of the admitted sizes, and sizes just beyond them. -/
theorem witness_constructionRule :
    (0 ≤ (2 ^ 63 - 1 : Int) ∧ (2 ^ 63 - 1 : Int) ≤ 2 ^ 63 - 1) ∧ ¬((2 ^ 63 : Int) ≤ 2 ^ 63 - 1) ∧
    ¬(0 ≤ (-1 : Int)) ∧ ¬((3 : Int) ≤ 2) := by decide

/-- A machine before its load. -/
def unloadedCase : State := { machine 2 6 0 [] [] [] [] with stage := .constructed }

/-- `LoadInstallsTheImages`: the longest data image that fits, and one word more. -/
theorem witness_loadInstallsTheImages :
    unloadedCase.Inv ∧ unloadedCase.stage = .constructed ∧
    (([1, 2, 3, 4] : List Word).length : Int) ≤ unloadedCase.dataSize - unloadedCase.ioSize ∧
    ([5, 1, 3] : List Word).length ≤ Config.maxIndex ∧
    (unloadedCase.dataSize : Int) - unloadedCase.ioSize < ([1, 2, 3, 4, 5] : List Word).length := by
  decide

/-- `OneLoadThenOneRun`: a load, a run with a cycle, a construction, and the longest image that fits. -/
theorem witness_oneLoadThenOneRun :
    (∃ t, load [5, 1, 3] [7, 8] [] [] unloadedCase = .next t) ∧
    (∃ t u, startRun unloadedCase = .next t ∧ t.Reaches 1 u) ∧
    (∃ s, construct 2 6 [] [] = .next s) ∧
    (0 ≤ (2 : Int) ∧ (2 : Int) ≤ 6 ∧ (6 : Int) ≤ 2 ^ 63 - 1 ∧
      (([7, 8, 9, 10] : List Word).length : Int) ≤ 6 - 2 ∧
      ([5, 1, 3] : List Word).length ≤ Config.maxIndex) :=
  ⟨⟨_, rfl⟩, ⟨_, _, rfl, rfl⟩, ⟨_, rfl⟩, by decide⟩

/-- `StateAtTheStartOfRun`, `EveryRunMeetsTheInvariant`: with an image and with none. -/
theorem witness_stateAtTheStartOfRun :
    (∃ s t, boot 2 6 [] [] (some ⟨[2, 3, 3], [7, 8], [], []⟩) = .next s ∧ s.Reaches 1 t) ∧
    (∃ s t, boot 2 6 [] [] none = .next s ∧ s.Reaches 1 t) :=
  ⟨⟨_, _, rfl, rfl⟩, ⟨_, _, rfl, rfl⟩⟩

/-- The machine of `DegenerateConfigurations` with IO_SIZE = DATA_SIZE = 2 and input 65. -/
def allIoCase : State := machine 2 2 0 [1, 2, 9] [] [.returns 65 none] []

/-- `DegenerateConfigurations`: two code words; IO_SIZE = 0; IO_SIZE = DATA_SIZE with an operand at the
bound, after an input; DATA_SIZE = 0; a pointer value at the bound (in no state of a run). -/
theorem witness_degenerateConfigurations :
    ((machine 2 10 0 [0, 0] [] [] []).Inv ∧ (machine 2 10 0 [0, 0] [] [] []).Runs ∧
      (machine 2 10 0 [0, 0] [] [] []).codeSize < 3) ∧
    (State.reset.Inv ∧ State.reset.Runs ∧ State.reset.ioSize = 0) ∧
    (allIoCase.Inv ∧ allIoCase.Runs ∧ allIoCase.ioSize = allIoCase.dataSize ∧
      resolveAll allIoCase (.direct 2) (.direct 1) (.direct 9) = .ok ⟨2, 1, 9⟩ ∧
      resolveAll allIoCase (.direct 1) (.direct 2) (.direct 9) = .ok ⟨1, 2, 9⟩ ∧
      sourceSelect allIoCase 1 = .value 65 (allIoCase.recordIn 1 (.value 65)) ∧
      ∃ t, step allIoCase = .next t) ∧
    ((machine 0 0 0 [-1, 0, 0] [] [] []).Inv ∧ (machine 0 0 0 [-1, 0, 0] [] [] []).Runs ∧
      (machine 0 0 0 [-1, 0, 0] [] [] []).dataSize = 0 ∧
      (machine 0 0 0 [-1, 0, 0] [] [] []).pc + 2 < (machine 0 0 0 [-1, 0, 0] [] [] []).codeSize) ∧
    ((machine 2 2 0 [] [(1, 2)] [] []).ioSize = (machine 2 2 0 [] [(1, 2)] [] []).dataSize ∧
      1 < (machine 2 2 0 [] [(1, 2)] [] []).dataSize ∧
      ((machine 2 2 0 [] [(1, 2)] [] []).dataSize : Int) ≤
        ((machine 2 2 0 [] [(1, 2)] [] []).dataWord 1).toInt) :=
  ⟨by decide, by decide, ⟨by decide, by decide, by decide, rfl, rfl, rfl, _, rfl⟩, by decide, by decide⟩

/-- `HaltValueOnlyWhenHalted`: a halted, a failed and a running machine. -/
theorem witness_haltValueOnlyWhenHalted :
    (haltedCase.Inv ∧ haltedCase.runState = .halted) ∧ (failedCase.Inv ∧ failedCase.runState ≠ .halted) ∧
    (memoryCase.Inv ∧ memoryCase.runState = .running) ∧
    failedCase.runState = .failed .doubleIndirect := by decide

/-- `EndOfRunObservation`: a halting and a failing last cycle, and a run that goes on. -/
theorem witness_endOfRunObservation :
    (haltedCase.Inv ∧ haltedCase.runState = .halted) ∧
    (failedCase.Inv ∧ failedCase.runState = .failed .doubleIndirect) ∧
    (memoryCase.Inv ∧ memoryCase.runState = .running) ∧
    (haltCase.Runs ∧ ∃ t o, step haltCase = .next t ∧ t.observe = some o) ∧
    (inputErrorCase.Runs ∧ ∃ t o, step inputErrorCase = .next t ∧ t.observe = some o) :=
  ⟨by decide, by decide, by decide, ⟨by decide, _, _, rfl, rfl⟩, ⟨by decide, _, _, rfl, rfl⟩⟩

end Sys2Proof.Tests
end

/-! SUPPORT. What each host command answers (construction, load, the start of Run), the life up to the start
of Run, and the state it leaves. -/

namespace Sys2Proof.Machine

/-- The machine that `construct` gives (spec R200): every data word 0, no code, Run not issued. -/
def State.fresh (ioSize dataSize : Nat) (ins : List InAnswer) (outs : List OutAnswer) : State :=
  { State.reset with
    ioSize := ioSize, dataSize := dataSize, stage := .constructed, inAnswers := ins, outAnswers := outs }

/-- The sizes that `construct` admits (spec R35, R200). -/
abbrev SizesAdmitted (io ds : Int) : Prop := 0 ≤ io ∧ io ≤ ds ∧ ds ≤ Config.maxIndex

/-- The images that `load` admits into `s` (spec R201). -/
abbrev State.Fits (s : State) (codeImage dataImage : List Word) : Prop :=
  dataImage.length ≤ s.dataSize - s.ioSize ∧ codeImage.length ≤ Config.maxIndex

theorem construct_eq_next {io ds : Int} {ins : List InAnswer} {outs : List OutAnswer} {s : State} :
    construct io ds ins outs = .next s ↔
      SizesAdmitted io ds ∧ s = State.fresh io.toNat ds.toNat ins outs := by
  by_cases hsizes : SizesAdmitted io ds
  · simp [construct, State.fresh, State.reset, SizesAdmitted, hsizes, eq_comm]
  · simp [construct, hsizes]

theorem load_eq_next {c d : List Word} {p q : SymbolTable} {s t : State} :
    load c d p q s = .next t ↔ s.stage = .constructed ∧ s.Fits c d ∧ t = s.install c d p q := by
  cases hstage : s.stage with
  | loaded => simp [load, hstage]
  | started => simp [load, hstage]
  | constructed =>
    by_cases hd : s.dataSize - s.ioSize < d.length
    · simp [load, hstage, hd]
    · by_cases hc : Config.maxIndex < c.length
      · simp [load, hstage, hd, hc]
      · simp [load, hstage, State.Fits, hd, hc, Nat.not_lt.1 hd, Nat.not_lt.1 hc, eq_comm]

theorem startRun_eq_next {s t : State} :
    startRun s = .next t ↔ s.stage ≠ .started ∧ t = { s with stage := .started } := by
  cases hstage : s.stage <;> simp [startRun, hstage, eq_comm]

/-- The life without a load: Construct, Run. -/
theorem boot_none_eq_next {io ds : Int} {ins : List InAnswer} {outs : List OutAnswer} {s : State} :
    boot io ds ins outs none = .next s ↔
      ∃ c, construct io ds ins outs = .next c ∧ startRun c = .next s := by
  cases hc : construct io ds ins outs <;> simp [boot, hc]

/-- The life with a load: Construct, Load, Run. -/
theorem boot_some_eq_next {io ds : Int} {ins : List InAnswer} {outs : List OutAnswer} {m : Image}
    {s : State} :
    boot io ds ins outs (some m) = .next s ↔
      ∃ c l, construct io ds ins outs = .next c ∧
        load m.code m.data m.codeSymbols m.dataSymbols c = .next l ∧ startRun l = .next s := by
  cases hc : construct io ds ins outs with
  | fault r => simp [boot, hc]
  | refused r => simp [boot, hc]
  | next c =>
    cases hl : load m.code m.data m.codeSymbols m.dataSymbols c <;> simp [boot, hc, hl]

/-- The state at the start of Run when no load was made. -/
theorem eq_fresh_of_boot_none {io ds : Int} {ins : List InAnswer} {outs : List OutAnswer} {s : State}
    (h : boot io ds ins outs none = .next s) :
    SizesAdmitted io ds ∧ s = { State.fresh io.toNat ds.toNat ins outs with stage := .started } := by
  obtain ⟨c, hc, hrun⟩ := boot_none_eq_next.1 h
  obtain ⟨hsizes, rfl⟩ := construct_eq_next.1 hc
  exact ⟨hsizes, (startRun_eq_next.1 hrun).2⟩

/-- The state at the start of Run after the load of `m`. -/
theorem eq_install_of_boot_some {io ds : Int} {ins : List InAnswer} {outs : List OutAnswer} {m : Image}
    {s : State} (h : boot io ds ins outs (some m) = .next s) :
    SizesAdmitted io ds ∧ (State.fresh io.toNat ds.toNat ins outs).Fits m.code m.data ∧
      s = { (State.fresh io.toNat ds.toNat ins outs).install m.code m.data m.codeSymbols m.dataSymbols with
            stage := .started } := by
  obtain ⟨c, l, hc, hload, hrun⟩ := boot_some_eq_next.1 h
  obtain ⟨hsizes, rfl⟩ := construct_eq_next.1 hc
  obtain ⟨-, hfits, rfl⟩ := load_eq_next.1 hload
  exact ⟨hsizes, hfits, (startRun_eq_next.1 hrun).2⟩

/-- A data word after a load: the image's where the image stands, the old one elsewhere (spec R201). -/
theorem State.install_dataWord {s : State} (h : Memory.wfFrom s.ioSize s.data = true) (c d : List Word)
    (p q : SymbolTable) (a : Nat) :
    (s.install c d p q).dataWord a =
      if s.ioSize ≤ a ∧ a < s.ioSize + d.length then d.getD (a - s.ioSize) 0#64 else s.dataWord a :=
  Memory.read_writeImage d a h le_rfl

/-- A data word of a machine that was constructed and loaded: the image's, or 0 outside it (spec R40). -/
theorem State.fresh_install_dataWord (ioSize dataSize : Nat) (ins : List InAnswer) (outs : List OutAnswer)
    (c d : List Word) (p q : SymbolTable) (a : Nat) :
    ((State.fresh ioSize dataSize ins outs).install c d p q).dataWord a =
      if ioSize ≤ a ∧ a < ioSize + d.length then d.getD (a - ioSize) 0#64 else 0 :=
  State.install_dataWord (s := State.fresh ioSize dataSize ins outs) rfl c d p q a

/-! The state at the start of Run (spec R40, R203). -/

/-- Settles O43, by the state each of the two lives up to the start of Run leaves: without a load it is the
constructed machine, with one the machine with the images installed, whose data words are then read in the
I/O addresses, in the image and behind it. -/
theorem stateAtTheStartOfRun : Obligations.StateAtTheStartOfRun := by
  unfold Obligations.StateAtTheStartOfRun
  intro io ds ins outs image s h
  cases image with
  | none =>
    obtain ⟨⟨hio, hds, -⟩, rfl⟩ := eq_fresh_of_boot_none h
    exact ⟨rfl, rfl, rfl, Int.toNat_of_nonneg hio, Int.toNat_of_nonneg (hio.trans hds), fun _ _ => rfl,
      fun _ => ⟨rfl, rfl, fun _ => rfl⟩, nofun⟩
  | some m =>
    obtain ⟨⟨hio, hds, -⟩, -, rfl⟩ := eq_install_of_boot_some h
    have hword := State.fresh_install_dataWord io.toNat ds.toNat ins outs m.code m.data m.codeSymbols
      m.dataSymbols
    refine ⟨rfl, rfl, rfl, Int.toNat_of_nonneg hio, Int.toNat_of_nonneg (hio.trans hds),
      fun a (ha : a < io.toNat) => ?below, nofun, ?image⟩
    case below => exact (hword a).trans (if_neg (by omega))
    case image =>
      rintro _ ⟨⟩
      refine ⟨rfl, rfl, fun i hi => ?inside, fun a (ha : io.toNat + m.data.length ≤ a) => ?behind⟩
      case inside =>
        refine (hword (io.toNat + i)).trans ?_
        rw [if_pos (by omega), Nat.add_sub_cancel_left]
        rfl
      case behind => exact (hword a).trans (if_neg (by omega))

end Sys2Proof.Machine

/-! SUPPORT. The operand resolver on raw operand words (spec R101 to R106), the indirection property (R109)
and double indirection (R110). -/

namespace Sys2Proof

/-- A negative word is the indirect operand whose pointer cell it negates (spec R74). -/
theorem decodeOperand_eq_indirect {r : Word} {l : Nat} (hcell : (l : Int) = -r.toInt) (hpos : 0 < l) :
    decodeOperand r = .indirect l := by
  rw [decodeOperand_of_neg (by omega), ← hcell, Int.toNat_natCast]

/-- The word `-l` names the pointer cell `l`, as long as `l` is an index (spec R74). -/
theorem decodeOperand_ofInt_neg {l : Nat} (hpos : 0 < l) (hmax : l ≤ Config.maxIndex) :
    decodeOperand (BitVec.ofInt 64 (-l)) = .indirect l := by
  have hword : (BitVec.ofInt 64 (-l)).toInt = -l :=
    toInt_ofInt_of_range (by simp only [Config.maxIndex] at hmax; omega) (by omega)
  exact decodeOperand_eq_indirect (by rw [hword, neg_neg]) hpos

namespace Machine

/-- A word `>= 0` resolves to itself, in every slot and with no check (spec R101). -/
theorem resolve_decodeOperand_of_nonneg (s : State) (slot : Slot) {r : Word} (h : 0 ≤ r.toInt) :
    resolve s slot (decodeOperand r) = .ok r.toInt.toNat := by
  rw [decodeOperand_of_nonneg h, resolve_direct]

/-- A pointer cell outside the data array (spec R102; D4). -/
theorem resolve_decodeOperand_of_cell_outside {s : State} (slot : Slot) {r : Word} (hneg : r.toInt < 0)
    (hout : (s.dataSize : Int) ≤ -r.toInt) :
    resolve s slot (decodeOperand r) = .error .dataIndexOutOfRange := by
  rw [decodeOperand_of_neg hneg, resolve_indirect_of_le slot (by omega)]

/-- A negative pointer is not followed, whatever the slot (spec R103). -/
theorem resolve_indirect_of_neg {s : State} {l : Nat} (slot : Slot) (hl : l < s.dataSize)
    (hneg : (s.dataWord l).toInt < 0) : resolve s slot (.indirect l) = .error .doubleIndirect := by
  rw [resolve_indirect_of_lt slot hl, checkPointer_neg slot hneg]

/-- A pointer outside the data array, in slot A or B (spec R104). -/
theorem resolve_indirect_of_big {s : State} {l : Nat} {slot : Slot} (hl : l < s.dataSize)
    (hslot : slot ≠ .c) (hbig : (s.dataSize : Int) ≤ (s.dataWord l).toInt) :
    resolve s slot (.indirect l) = .error .outOfMemoryRange := by
  rw [resolve_indirect_of_lt slot hl, checkPointer_big hslot hbig]

/-- A pointer the slot admits is the address (spec R104, R105). -/
theorem resolve_indirect_of_admitted {s : State} {l : Nat} {slot : Slot} (hl : l < s.dataSize)
    (hnonneg : 0 ≤ (s.dataWord l).toInt) (hadm : slot = .c ∨ (s.dataWord l).toInt < s.dataSize) :
    resolve s slot (.indirect l) = .ok (s.dataWord l).toInt.toNat := by
  rw [resolve_indirect_of_lt slot hl, checkPointer_ok hnonneg hadm]

/-- Settles O9, clause by clause in the order of the checks: a direct word, a pointer cell outside the data
array, and a cell inside it by what it holds. -/
theorem resolverFollowsTheRules : Obligations.ResolverFollowsTheRules := by
  unfold Obligations.ResolverFollowsTheRules
  intro s slot r
  refine ⟨resolve_decodeOperand_of_nonneg s slot, resolve_decodeOperand_of_cell_outside slot, ?_⟩
  intro l hcell hpos hl
  rw [decodeOperand_eq_indirect hcell hpos]
  exact ⟨resolve_indirect_of_neg slot hl, resolve_indirect_of_big hl, resolve_indirect_of_admitted hl⟩

/-- Settles O10: the indirect operand and the direct one both resolve to the pointer value `V`. -/
theorem indirectionProperty : Obligations.IndirectionProperty := by
  unfold Obligations.IndirectionProperty
  intro s slot l hsize hpos hl hnonneg hadm
  have hindirect : resolve s slot (decodeOperand (BitVec.ofInt 64 (-l))) =
      .ok (s.dataWord l).toInt.toNat := by
    rw [decodeOperand_ofInt_neg hpos (hl.le.trans hsize)]
    exact resolve_indirect_of_admitted hl hnonneg hadm
  exact ⟨hindirect.trans (resolve_decodeOperand_of_nonneg s slot hnonneg).symm, hindirect⟩

/-- Settles O11: the negative pointer fails its slot, and where the earlier slots resolve, the slot's failure
is the failure of the cycle (spec R179). -/
theorem doubleIndirectionAlwaysFails : Obligations.DoubleIndirectionAlwaysFails := by
  unfold Obligations.DoubleIndirectionAlwaysFails
  intro s x y z l hl hneg
  have hfails (slot : Slot) : resolve s slot (.indirect l) = .error .doubleIndirect :=
    resolve_indirect_of_neg slot hl hneg
  refine ⟨?slotA, fun ea ha => ?slotB, fun ea eb ha hb => ?slotC⟩
  case slotA => exact exec_of_error (resolveAll_of_a y z (hfails .a))
  case slotB => exact exec_of_error (resolveAll_of_b z ha (hfails .b))
  case slotC => exact exec_of_error (resolveAll_of_c ha hb (hfails .c))

end Machine

end Sys2Proof

/-! SUPPORT. The I/O interception (spec 41): what the two selectors add to the trace, the input transaction
(R121), and the Continue and Error answers of the output port (R126, R127). -/

namespace Sys2Proof.Machine

/-- What the source selector adds to the trace for the resolved operand `a`: the one input transaction below
IO_SIZE (spec R121), nothing above it. -/
structure SourceTrace (s : State) (a : Nat) (l : List Transaction) : Prop where
  port : a < s.ioSize → ∃ r, l = [.input a r]
  memory : s.ioSize ≤ a → l = []

/-- What the destination selector adds to the trace for the value `v` and the resolved operand `eb`: the one
output transaction below IO_SIZE (spec R124), nothing above it. -/
structure DestTrace (s : State) (v : Word) (eb : Nat) (l : List Transaction) : Prop where
  port : eb < s.ioSize → ∃ r, l = [.output v eb r]
  memory : s.ioSize ≤ eb → l = []

theorem SourceTrace.of_port {s : State} {a : Nat} (h : a < s.ioSize) (r : InResponse) :
    SourceTrace s a [.input a r] :=
  ⟨fun _ => ⟨r, rfl⟩, fun hle => absurd h (Nat.not_lt.2 hle)⟩

theorem SourceTrace.of_memory {s : State} {a : Nat} (h : s.ioSize ≤ a) : SourceTrace s a [] :=
  ⟨fun hlt => absurd hlt (Nat.not_lt.2 h), fun _ => rfl⟩

theorem DestTrace.of_port {s : State} {eb : Nat} (v : Word) (h : eb < s.ioSize) (r : OutResponse) :
    DestTrace s v eb [.output v eb r] :=
  ⟨fun _ => ⟨r, rfl⟩, fun hle => absurd h (Nat.not_lt.2 hle)⟩

theorem DestTrace.of_memory {s : State} {eb : Nat} (v : Word) (h : s.ioSize ≤ eb) : DestTrace s v eb [] :=
  ⟨fun hlt => absurd hlt (Nat.not_lt.2 h), fun _ => rfl⟩

theorem DestTrace.not_mem_input {s : State} {v : Word} {eb : Nat} {l : List Transaction}
    (h : DestTrace s v eb l) (a : Nat) (r : InResponse) : .input a r ∉ l := by
  rcases Nat.lt_or_ge eb s.ioSize with hlt | hge
  · obtain ⟨r', rfl⟩ := h.port hlt
    simp
  · simp [h.memory hge]

/-- The trace after a source selector that gave a value. -/
theorem sourceSelect_value_trace {s s1 : State} {a : Nat} {v : Word} (h : sourceSelect s a = .value v s1) :
    ∃ l, s1.trace = s.trace ++ l ∧ SourceTrace s a l := by
  obtain ⟨hio, -, rfl⟩ | ⟨hio, -, -, rfl⟩ := sourceSelect_value_cases h
  · exact ⟨_, rfl, .of_port hio (.value v)⟩
  · exact ⟨[], by simp, .of_memory hio⟩

/-- The trace after a source selector that failed. -/
theorem sourceSelect_failed_trace {s s1 : State} {a : Nat} {k : FaultKind}
    (h : sourceSelect s a = .failed k s1) : ∃ l, s1.trace = s.trace ++ l ∧ SourceTrace s a l := by
  obtain ⟨hio, e, -, rfl⟩ | ⟨hio, -, -, rfl⟩ := sourceSelect_failed_cases h
  · exact ⟨_, rfl, .of_port hio (.error e)⟩
  · exact ⟨[], by simp, .of_memory hio⟩

/-- The trace after the destination selector. -/
theorem DestCase.trace {s t : State} {v : Word} {eb ec : Nat} (h : DestCase s v eb ec t) :
    ∃ l, t.trace = s.trace ++ l ∧ DestTrace s v eb l := by
  cases h with
  | proceed hio ht => exact ⟨_, by rw [ht]; rfl, .of_port v hio .proceed⟩
  | halt hio ht => exact ⟨_, by rw [ht]; rfl, .of_port v hio .halt⟩
  | error hio e ht => exact ⟨_, by rw [ht]; rfl, .of_port v hio (.error e)⟩
  | memory hio hd ht => exact ⟨[], by simp [ht], .of_memory v hio⟩
  | outside hio hd ht => exact ⟨[], by simp [ht], .of_memory v hio⟩

/-- A SUBLEQ whose operands resolve adds the source selector's part to the trace, and after it only
transactions that are no inputs. -/
theorem exec_trace_of_resolved {s t : State} {x y z : Operand} {ea : Resolved}
    (hres : resolveAll s x y z = .ok ea) (h : exec (.subleq x y z) s = .next t) :
    ∃ l l', t.trace = s.trace ++ (l ++ l') ∧ SourceTrace s ea.a l ∧ ∀ a r, .input a r ∉ l' := by
  cases exec_cases h with
  | resolution k herr ht => cases hres.symm.trans herr
  | source ea' hok k s1 hs ht =>
    cases hres.symm.trans hok
    obtain ⟨l, hl, hsource⟩ := sourceSelect_failed_trace hs
    exact ⟨l, [], by simp [ht, hl], hsource, by simp⟩
  | dest ea' hok v s1 hs hdest =>
    cases hres.symm.trans hok
    obtain ⟨l, hl, hsource⟩ := sourceSelect_value_trace hs
    obtain ⟨l', hl', hd⟩ := hdest.trace
    exact ⟨l, l', by rw [hl', hl, List.append_assoc], hsource, hd.not_mem_input⟩

/-- Settles O33, by what a cycle does: a failed resolution and a failed fetch only enter the fault, and a
resolved SUBLEQ begins its transactions with the source selector's part, the one place of an input. -/
theorem inputTransactionExactlyOnce : Obligations.InputTransactionExactlyOnce := by
  unfold Obligations.InputTransactionExactlyOnce
  refine ⟨fun s t x y z h => ?instruction, fun s t hruns hfetch h => ?fetch⟩
  case instruction =>
    cases hres : resolveAll s x y z with
    | error k =>
      cases (exec_of_error hres).symm.trans h
      exact ⟨[], by simp, fun _ _ => rfl, nofun⟩
    | ok ea =>
      obtain ⟨l, l', htrace, hsource, hnone⟩ := exec_trace_of_resolved hres h
      refine ⟨l ++ l', htrace, nofun, ?_⟩
      rintro _ ⟨⟩
      refine ⟨fun hport => ?port, fun hmemory => ?memory⟩
      case port =>
        obtain ⟨r, rfl⟩ := hsource.port hport
        exact ⟨r, l', rfl, hnone⟩
      case memory =>
        rw [hsource.memory hmemory]
        exact hnone
  case fetch =>
    cases (step_of_fault hruns hfetch).symm.trans h
    rfl

/-- Where the source selector gives a value, it changed the settled inputs and the trace at most. -/
theorem sourceSelect_value_frame {s s1 : State} {a : Nat} {v : Word} (h : sourceSelect s a = .value v s1) :
    ∃ ins tr, s1 = { s with inAnswers := ins, trace := tr } := by
  obtain ⟨-, -, rfl⟩ | ⟨-, -, -, rfl⟩ := sourceSelect_value_cases h
  · exact ⟨_, _, rfl⟩
  · exact ⟨_, _, rfl⟩

/-- Settles O19: the source selector leaves IO_SIZE and pc, so its value meets the output port, whose
Continue advances that pc. -/
theorem outputContinueAdvancesByThree : Obligations.OutputContinueAdvancesByThree := by
  unfold Obligations.OutputContinueAdvancesByThree
  intro s s1 x y z ea v hres hsource hio hanswer
  obtain ⟨ins, tr, rfl⟩ := sourceSelect_value_frame hsource
  exact (exec_of_value hres hsource).trans
    (destSelect_proceed ea.c hio (by rw [hanswer, outResponse_continue]))

/-- Settles O21: the source selector's value meets the output port, where the error of the answer decides,
whatever its boolean (D20). -/
theorem outputErrorFailsTheRun : Obligations.OutputErrorFailsTheRun := by
  unfold Obligations.OutputErrorFailsTheRun
  intro s s1 x y z ea v haltRequested e hres hsource hio hanswer
  obtain ⟨ins, tr, rfl⟩ := sourceSelect_value_frame hsource
  exact (exec_of_value hres hsource).trans
    (destSelect_error ea.c hio (by rw [hanswer, outResponse_of_error]))

end Sys2Proof.Machine

/-! SUPPORT. The execution of SUBLEQ (spec 42): the fetch check with the fetch (R141, R142), and the memory
path (R144, R145). -/

namespace Sys2Proof.Machine

/-- Settles O6, by the two answers of the fetch check; the words it fetched are words of the code, since the
check bounds the last of the three addresses. -/
theorem fetchCheckThenFetch : Obligations.FetchCheckThenFetch := by
  unfold Obligations.FetchCheckThenFetch
  intro s hruns
  refine ⟨step_of_fault hruns, fun hin => ?_⟩
  have hfirst : s.pc < s.codeSize := by omega
  have hsecond : s.pc + 1 < s.codeSize := by omega
  exact ⟨_, _, _, codeWord_eq hfirst, codeWord_eq hsecond, codeWord_eq hin, step_of_fetch hruns hin⟩

/-- The branch test is the sign test on the word it is given (spec R145). -/
theorem branches_iff (new : Word) : branches new = true ↔ new.toInt ≤ 0 :=
  decide_eq_true_iff

/-- The memory path within the bound: one data word becomes the wrapped difference, the stored word decides
pc, and nothing else changes (spec R144, R145). -/
theorem destSelect_store {s : State} {lo eb : Nat} (v : Word) (ec : Nat)
    (hwf : Memory.wfFrom lo s.data = true) (hio : s.ioSize ≤ eb) (hd : eb < s.dataSize) :
    ∃ t, destSelect s v eb ec = .next t ∧
      (∀ i, t.dataWord i = if i = eb then subtract (s.dataWord eb) v else s.dataWord i) ∧
      t.pc = (if (t.dataWord eb).toInt ≤ 0 then ec else s.pc + 3) ∧
      t = { s with data := t.data, pc := t.pc } := by
  refine ⟨_, destSelect_memory v ec hio hd, fun i => ?word, ?pc, rfl⟩
  case word => rw [State.setPc_dataWord, dataWord_storeData hwf]
  case pc =>
    rw [State.setPc_pc, State.setPc_dataWord, dataWord_storeData hwf, if_pos rfl]
    simp only [branches_iff]

/-- Settles O18: the source selector leaves the data, its bound and pc, so its value meets the memory path of
the cycle's own state, outside the bound or within it. -/
theorem memoryPathRule : Obligations.MemoryPathRule := by
  unfold Obligations.MemoryPathRule
  intro s s1 x y z ea v hinv hres hsource hio
  obtain ⟨-, -, -, -, hwf, -, -⟩ := hinv
  obtain ⟨ins, tr, rfl⟩ := sourceSelect_value_frame hsource
  rw [exec_of_value hres hsource]
  exact ⟨fun hout => destSelect_outside v ea.c hio hout, fun hin => destSelect_store v ea.c hwf hio hin⟩

end Sys2Proof.Machine

/-! SUPPORT. The encoding (spec 30): decoding an encoding, encoding what was decoded (R70 to R80), and the
word an instruction is placed as. -/

namespace Sys2Proof

/-- The word of a well-formed operand is read back as that operand: every operand value is in the range of a
word, and its sign is the mode (spec R72 to R75). -/
theorem decodeOperand_encodeOperand {o : Operand} (h : o.wellFormed = true) :
    decodeOperand (encodeOperand o) = o := by
  cases o with
  | direct n =>
    simp only [Operand.wellFormed, decide_eq_true_eq] at h
    have hword : (encodeOperand (.direct n)).toInt = n := toInt_ofInt_of_range (by omega) (by omega)
    rw [decodeOperand_of_nonneg (by omega), hword, Int.toNat_natCast]
  | indirect l =>
    simp only [Operand.wellFormed, Bool.and_eq_true, decide_eq_true_eq] at h
    have hword : (encodeOperand (.indirect l)).toInt = -l := toInt_ofInt_of_range (by omega) (by omega)
    rw [decodeOperand_of_neg (by omega), hword, neg_neg, Int.toNat_natCast]

/-- Settles O1: the decoder takes the three words of the encoding, each of which is read back as its
operand. -/
theorem decodeEncodeAgree : Obligations.DecodeEncodeAgree := by
  unfold Obligations.DecodeEncodeAgree
  rintro ⟨x, y, z⟩ rest hwf
  simp only [Instr.wellFormed, Bool.and_eq_true] at hwf
  obtain ⟨⟨hx, hy⟩, hz⟩ := hwf
  simp [encode, decode, decodeTriplet, decodeOperand_encodeOperand, hx, hy, hz]

/-- The encoding of a decoded instruction is the three words (spec R70). -/
theorem encode_decodeTriplet (a b c : Word) : encode (decodeTriplet a b c) = [a, b, c] := by
  simp [decodeTriplet, encode, encodeOperand_decodeOperand]

/-- A row of the table is the instruction its three words are, as long as it is said to have at most the 192
bits of an instruction. -/
theorem decodeTableWord_eq_some {nbits w : Nat} {i : Instr} :
    decodeTableWord nbits w = some i ↔
      nbits ≤ 192 ∧ ∃ a b c, tableWords nbits w = [a, b, c] ∧ decodeTriplet a b c = i := by
  by_cases h : nbits ≤ 192 <;> simp [decodeTableWord, tableWords, decode, h]

/-- The three words of a 192-bit pattern are its bits 63 to 0, 127 to 64 and 191 to 128. -/
theorem tableWords_toNat (w : BitVec 192) :
    tableWords 192 w.toNat = [w.extractLsb' 0 64, w.extractLsb' 64 64, w.extractLsb' 128 64] := by
  simp [tableWords, Nat.mod_eq_of_lt w.isLt, BitVec.extractLsb', Nat.shiftRight_eq_div_pow]

/-- Settles O2: the pattern's three words, whatever they are, are a well-formed SUBLEQ that encodes to
them. -/
theorem everyPatternDecodesToSubleq : Obligations.EveryPatternDecodesToSubleq := by
  unfold Obligations.EveryPatternDecodesToSubleq
  intro w
  exact ⟨_, _, _, decodeTableWord_eq_some.2 ⟨le_rfl, _, _, _, tableWords_toNat w, rfl⟩,
    decodeTriplet_wellFormed .., encode_decodeTriplet ..⟩

/-- The low 63 bits of a word `>= 0` are its value. -/
theorem toNat_extractLsb'_63_of_nonneg {r : Word} (h : 0 ≤ r.toInt) :
    ((r.extractLsb' 0 63).toNat : Int) = r.toInt := by
  have hvalue := BitVec.toInt_eq_toNat_of_lt (BitVec.toInt_pos_iff.1 h)
  have hsmall := BitVec.toInt_pos_iff.1 h
  rw [hvalue, BitVec.extractLsb'_toNat, Nat.shiftRight_zero, Nat.mod_eq_of_lt (by omega)]

/-- Settles O3: the sign bit is the sign, and the sign is the mode, with the address or the pointer cell in
the range that the range of a word leaves. -/
theorem signBitSelectsMode : Obligations.SignBitSelectsMode := by
  unfold Obligations.SignBitSelectsMode
  intro r
  refine ⟨?sign, fun h => ?direct, fun h => ?indirect⟩
  case sign => rw [← BitVec.msb_eq_getLsbD_last, BitVec.msb_eq_toInt, decide_eq_true_iff]
  case direct =>
    have hlow := toNat_extractLsb'_63_of_nonneg h
    exact ⟨_, decodeOperand_of_nonneg h, Int.toNat_of_nonneg h, by omega⟩
  case indirect =>
    have hleast := Machine.le_word r
    exact ⟨_, decodeOperand_of_neg h, Int.toNat_of_nonneg (by omega), by omega, by omega⟩

/-- Settles O4, by running the decoder on the four words. -/
theorem specWordsDecode : Obligations.SpecWordsDecode := by
  unfold Obligations.SpecWordsDecode
  decide

namespace Machine

/-- Settles O12: the cell `2^63` that the word names lies beyond every admitted DATA_SIZE. -/
theorem leastWordNeverResolves : Obligations.LeastWordNeverResolves := by
  unfold Obligations.LeastWordNeverResolves
  have hcell : decodeOperand 0x8000000000000000#64 = .indirect (2 ^ 63) := by decide
  refine ⟨hcell, fun s slot hsize => ?_⟩
  rw [hcell]
  exact resolve_indirect_of_le slot (hsize.trans (by decide))

/-- What the decoder accepts: three words, whatever follows them (spec R70, R77). -/
theorem decode_eq_ok {ws rest : List Word} {i : Instr} :
    decode ws = .ok (i, rest) ↔ ∃ a b c, ws = a :: b :: c :: rest ∧ decodeTriplet a b c = i := by
  rcases ws with _ | ⟨a, _ | ⟨b, _ | ⟨c, ws⟩⟩⟩
  all_goals simp [decode, and_comm]

/-- Settles O5: where the decoder accepts, three words stand at pc, so the fetch check passes and these three
words are what the cycle runs. -/
theorem stepRunsDecodedInstruction : Obligations.StepRunsDecodedInstruction := by
  unfold Obligations.StepRunsDecodedInstruction
  intro s i rest hruns _ hdecode
  obtain ⟨a, b, c, hdrop, -⟩ := decode_eq_ok.1 hdecode
  have hfetch : s.pc + 2 < s.codeSize := by
    have hlength := congrArg List.length hdrop
    simp only [List.length_drop, List.length_cons] at hlength
    simp only [State.codeSize]
    omega
  rw [drop_pc_eq hfetch] at hdecode
  cases hdecode
  exact step_of_fetch hruns hfetch

/-- The placed words stand at pc. -/
theorem State.withFetchWord_drop_pc (s : State) (nbits w : Nat) :
    (s.withFetchWord nbits w).code.drop s.pc = tableWords nbits w ++ s.code.drop (s.pc + 3) := by
  have hlength : (s.code.take s.pc ++ List.replicate (s.pc - s.code.length) 0).length = s.pc := by
    simp only [List.length_append, List.length_take, List.length_replicate]
    omega
  simp only [State.withFetchWord, List.append_assoc _ (tableWords nbits w)]
  exact List.drop_left' hlength

/-- Settles O7: the placed words stand at pc of a running machine, so the step runs what the decoder makes of
them. -/
theorem placedWordRuns : Obligations.PlacedWordRuns := by
  unfold Obligations.PlacedWordRuns
  intro s nbits w i hrow
  obtain ⟨-, a, b, c, hwords, rfl⟩ := decodeTableWord_eq_some.1 hrow
  refine stepRunsDecodedInstruction _ _ (s.code.drop (s.pc + 3)) ⟨rfl, rfl⟩
    (decodeTriplet_wellFormed a b c) ?_
  exact decode_eq_ok.2 ⟨a, b, c, (s.withFetchWord_drop_pc nbits w).trans (by rw [hwords]; rfl), rfl⟩

end Machine

end Sys2Proof

/-! SUPPORT. The outcomes of a SUBLEQ (spec 42 R147, R156), what no cycle changes, and the invariant. -/

namespace Sys2Proof.Machine

/-- What the port transactions of a cycle change: the settled answers are used up from the front, and the
trace is another. -/
inductive PortEffect (s : State) : State → Prop where
  | intro (ins : List InAnswer) (outs : List OutAnswer) (tr : List Transaction)
      (hins : ins = s.inAnswers ∨ ins = s.inAnswers.tail)
      (houts : outs = s.outAnswers ∨ outs = s.outAnswers.tail) :
      PortEffect s { s with inAnswers := ins, outAnswers := outs, trace := tr }

theorem PortEffect.refl (s : State) : PortEffect s s := ⟨_, _, _, .inl rfl, .inl rfl⟩

theorem PortEffect.of_recordIn (s : State) (a : Nat) (r : InResponse) : PortEffect s (s.recordIn a r) :=
  ⟨_, _, _, .inr rfl, .inl rfl⟩

/-- An output may follow what the source selector did, which leaves the settled outputs. -/
theorem PortEffect.recordOut {s s1 : State} (h : PortEffect s s1) (houts : s1.outAnswers = s.outAnswers)
    (v : Word) (b : Nat) (r : OutResponse) : PortEffect s (s1.recordOut v b r) := by
  obtain ⟨ins, outs, tr, hins, -⟩ := h
  cases houts
  exact ⟨ins, _, _, hins, .inr rfl⟩

theorem sourceSelect_value_ports {s s1 : State} {a : Nat} {v : Word} (h : sourceSelect s a = .value v s1) :
    PortEffect s s1 ∧ s1.outAnswers = s.outAnswers := by
  obtain ⟨-, -, rfl⟩ | ⟨-, -, -, rfl⟩ := sourceSelect_value_cases h
  · exact ⟨.of_recordIn .., rfl⟩
  · exact ⟨.refl _, rfl⟩

theorem sourceSelect_failed_ports {s s1 : State} {a : Nat} {k : FaultKind}
    (h : sourceSelect s a = .failed k s1) : PortEffect s s1 ∧ k ≠ .outOfCodeRange := by
  obtain ⟨-, e, rfl, rfl⟩ | ⟨-, -, rfl, rfl⟩ := sourceSelect_failed_cases h
  · exact ⟨.of_recordIn .., nofun⟩
  · exact ⟨.refl _, nofun⟩

/-- No resolution raises OutOfCodeRange (spec R171). -/
theorem resolveAll_ne_outOfCodeRange {s : State} {x y z : Operand} {k : FaultKind}
    (h : resolveAll s x y z = .error k) : k ≠ .outOfCodeRange := by
  rcases resolveAll_eq_error h with h | h | h <;>
    obtain rfl | rfl | ⟨rfl, -⟩ := resolve_eq_error h <;> nofun

/-- The outcomes of a SUBLEQ (spec R147): the change it makes to a state `u` that differs from the state it
began with by its port transactions alone. -/
inductive SubleqOutcome (s : State) (x y z : Operand) (t : State) : Prop where
  | failed (k : FaultKind) (hk : k ≠ .outOfCodeRange) (u : State) (hu : PortEffect s u) (ht : t = u.raise k)
  | halted (ea : Resolved) (hres : resolveAll s x y z = .ok ea) (hio : ea.b < s.ioSize) (v : Word)
      (u : State) (hu : PortEffect s u) (l : List Transaction)
      (htrace : u.trace = s.trace ++ l ++ [.output v ea.b .halt]) (ht : t = u.halt (negate v))
  | continued (ea : Resolved) (hres : resolveAll s x y z = .ok ea) (hio : ea.b < s.ioSize)
      (u : State) (hu : PortEffect s u) (ht : t = u.setPc (s.pc + 3))
  | stored (ea : Resolved) (hres : resolveAll s x y z = .ok ea) (hio : s.ioSize ≤ ea.b)
      (hd : ea.b < s.dataSize) (new : Word) (u : State) (hu : PortEffect s u)
      (ht : t = (u.storeData ea.b new).setPc (if branches new then ea.c else s.pc + 3))

/-- Every next state of a SUBLEQ is one of the outcomes. -/
theorem SubleqCase.outcome {s t : State} {x y z : Operand} (h : SubleqCase s x y z t) :
    SubleqOutcome s x y z t := by
  cases h with
  | resolution k herr ht => exact .failed k (resolveAll_ne_outOfCodeRange herr) s (.refl s) ht
  | source ea hres k s1 hs ht =>
    obtain ⟨hports, hk⟩ := sourceSelect_failed_ports hs
    exact .failed k hk s1 hports ht
  | dest ea hres v s1 hs hdest =>
    obtain ⟨l, htrace, -⟩ := sourceSelect_value_trace hs
    obtain ⟨hports, houts⟩ := sourceSelect_value_ports hs
    have hout (r : OutResponse) : PortEffect s (s1.recordOut v ea.b r) := hports.recordOut houts v ea.b r
    obtain ⟨ins, outs, tr, -, -⟩ := id hports
    cases hdest with
    | proceed hio ht => exact .continued ea hres hio _ (hout .proceed) ht
    | halt hio ht => exact .halted ea hres hio v _ (hout .halt) l (by rw [← htrace]; rfl) ht
    | error hio e ht => exact .failed (.handlerError e) nofun _ (hout (.error e)) ht
    | memory hio hd ht => exact .stored ea hres hio hd _ _ hports ht
    | outside hio hd ht => exact .failed .dataIndexOutOfRange nofun _ hports ht

/-! What no cycle writes (spec R23, R31, R34, R204). -/

/-- The fields that no cycle writes are the same in both states. -/
structure SameFixed (s t : State) : Prop where
  code : t.code = s.code
  ioSize : t.ioSize = s.ioSize
  dataSize : t.dataSize = s.dataSize
  codeSymbols : t.codeSymbols = s.codeSymbols
  dataSymbols : t.dataSymbols = s.dataSymbols
  stage : t.stage = s.stage

theorem SameFixed.refl (s : State) : SameFixed s s := ⟨rfl, rfl, rfl, rfl, rfl, rfl⟩

theorem SameFixed.trans {s t u : State} (h : SameFixed s t) (h' : SameFixed t u) : SameFixed s u :=
  ⟨h'.code.trans h.code, h'.ioSize.trans h.ioSize, h'.dataSize.trans h.dataSize,
    h'.codeSymbols.trans h.codeSymbols, h'.dataSymbols.trans h.dataSymbols, h'.stage.trans h.stage⟩

theorem SameFixed.raise (s : State) (k : FaultKind) : SameFixed s (s.raise k) :=
  ⟨rfl, rfl, rfl, rfl, rfl, rfl⟩

theorem SameFixed.halt (s : State) (v : Word) : SameFixed s (s.halt v) := ⟨rfl, rfl, rfl, rfl, rfl, rfl⟩

theorem SameFixed.setPc (s : State) (n : Nat) : SameFixed s (s.setPc n) := ⟨rfl, rfl, rfl, rfl, rfl, rfl⟩

theorem SameFixed.storeData (s : State) (a : Nat) (v : Word) : SameFixed s (s.storeData a v) :=
  ⟨rfl, rfl, rfl, rfl, rfl, rfl⟩

theorem PortEffect.sameFixed {s u : State} (h : PortEffect s u) : SameFixed s u := by
  cases h
  exact ⟨rfl, rfl, rfl, rfl, rfl, rfl⟩

theorem SubleqOutcome.sameFixed {s t : State} {x y z : Operand} (h : SubleqOutcome s x y z t) :
    SameFixed s t := by
  cases h with
  | failed k hk u hu ht => exact ht ▸ hu.sameFixed.trans (.raise u k)
  | halted ea hres hio v u hu l htrace ht => exact ht ▸ hu.sameFixed.trans (.halt u _)
  | continued ea hres hio u hu ht => exact ht ▸ hu.sameFixed.trans (.setPc u _)
  | stored ea hres hio hd new u hu ht =>
    exact ht ▸ (hu.sameFixed.trans (.storeData u ea.b new)).trans (.setPc _ _)

theorem step_sameFixed {s t : State} (h : step s = .next t) : SameFixed s t := by
  cases step_cases h with
  | ended hstage hend ht => exact ht ▸ .refl s
  | fetch hruns hc ht => exact ht ▸ .raise s _
  | exec hruns hc x y z hwf hi ht => exact ht.outcome.sameFixed

theorem reaches_sameFixed {s t : State} {k : Nat} (h : s.Reaches k t) : SameFixed s t :=
  reaches_induction (P := SameFixed s) (fun _ _ hP hstep => hP.trans (step_sameFixed hstep)) (.refl s) h

/-! The invariant, operation by operation. -/

theorem State.Inv.ports {s u : State} (h : s.Inv) (hu : PortEffect s u) : u.Inv := by
  cases hu
  exact h

/-- A running or failed machine has no halt value (spec R29). -/
theorem State.Inv.haltValue_eq_none {s : State} (h : s.Inv) (hr : s.runState ≠ .halted) :
    s.haltValue = none := by
  obtain ⟨-, -, -, -, -, -, hhalt⟩ := h
  exact Option.not_isSome_iff_eq_none.1 fun hsome => hr (hhalt.2 hsome)

theorem State.Inv.raise {s : State} (h : s.Inv) (hr : s.runState ≠ .halted) (k : FaultKind) :
    (s.raise k).Inv := by
  have hnone := h.haltValue_eq_none hr
  obtain ⟨hio, hds, hcode, hpc, hwf, hbelow, -⟩ := h
  exact ⟨hio, hds, hcode, hpc, hwf, hbelow, by simp [hnone]⟩

theorem State.Inv.halt {s : State} (h : s.Inv) (v : Word) : (s.halt v).Inv := by
  obtain ⟨hio, hds, hcode, hpc, hwf, hbelow, -⟩ := h
  exact ⟨hio, hds, hcode, hpc, hwf, hbelow, by simp⟩

theorem State.Inv.setPc {s : State} (h : s.Inv) {n : Nat} (hn : n ≤ Config.maxIndex) : (s.setPc n).Inv := by
  obtain ⟨hio, hds, hcode, -, hwf, hbelow, hhalt⟩ := h
  exact ⟨hio, hds, hcode, hn, hwf, hbelow, hhalt⟩

theorem State.Inv.storeData {s : State} (h : s.Inv) {a : Nat} (hio : s.ioSize ≤ a) (hd : a < s.dataSize)
    (v : Word) : (s.storeData a v).Inv := by
  obtain ⟨hsizes, hds, hcode, hpc, hwf, hbelow, hhalt⟩ := h
  exact ⟨hsizes, hds, hcode, hpc, Memory.wfFrom_write v hwf hio, Memory.below_write v hbelow hd, hhalt⟩

/-- A resolved operand is an index, as a direct one has an encoding and a pointer value is a word. -/
theorem resolve_le_maxIndex {s : State} {slot : Slot} {o : Operand} {n : Nat} (hwf : o.wellFormed = true)
    (h : resolve s slot o = .ok n) : n ≤ Config.maxIndex := by
  simp only [Config.maxIndex]
  cases o with
  | direct m =>
    cases h
    simp only [Operand.wellFormed, decide_eq_true_eq] at hwf
    omega
  | indirect l =>
    obtain ⟨-, hvalue, -⟩ := resolve_indirect_eq_ok h
    have hlt := word_lt (s.dataWord l)
    omega

/-- A fetch that passed its check leaves room for `pc + 3` (spec R147). -/
theorem State.Inv.pc_add_three_le {s : State} (h : s.Inv) (hc : s.pc + 2 < s.codeSize) :
    s.pc + 3 ≤ Config.maxIndex := by
  obtain ⟨-, -, hcode, -⟩ := h
  omega

/-- Settles O46: an ended run stays, and the others keep the invariant operation by operation; pc goes to
`pc + 3`, which the fetch check bounds, or to the resolved C, which is an index. -/
theorem stepKeepsTheInvariant : Obligations.StepKeepsTheInvariant := by
  unfold Obligations.StepKeepsTheInvariant
  intro s t hinv h
  cases step_cases h with
  | ended hstage hend ht => exact ht ▸ hinv
  | fetch hruns hc ht => exact ht ▸ hinv.raise (by simp [hruns.2]) _
  | exec hruns hc x y z hwf hi hcase =>
    have hnext : s.pc + 3 ≤ Config.maxIndex := hinv.pc_add_three_le hc
    cases hcase.outcome with
    | failed k hk u hu ht =>
      have hrunning : u.runState = .running := by cases hu; exact hruns.2
      exact ht ▸ (hinv.ports hu).raise (by simp [hrunning]) k
    | halted ea hres hio v u hu l htrace ht => exact ht ▸ (hinv.ports hu).halt _
    | continued ea hres hio u hu ht => exact ht ▸ (hinv.ports hu).setPc hnext
    | stored ea hres hio hd new u hu ht =>
      simp only [Instr.wellFormed, Bool.and_eq_true] at hwf
      obtain ⟨-, -, hresC⟩ := resolveAll_eq_ok.1 hres
      have htarget : (if branches new then ea.c else s.pc + 3) ≤ Config.maxIndex := by
        split
        · exact resolve_le_maxIndex hwf.2 hresC
        · exact hnext
      have hstore : (u.storeData ea.b new).Inv := by
        cases hu
        exact State.Inv.storeData hinv hio hd new
      exact ht ▸ hstore.setPc htarget

end Sys2Proof.Machine

/-! SUPPORT. The frame of a SUBLEQ, of a cycle and of a run (spec 42 R147, R156; spec 10), and how a run
ends (spec 60). -/

namespace Sys2Proof.Machine

/-- Settles O8, by induction on the number of steps, each of which changes nothing. -/
theorem endedRunsStay : Obligations.EndedRunsStay := by
  unfold Obligations.EndedRunsStay
  intro s k hstage hend
  induction k with
  | zero => exact reaches_zero.2 rfl
  | succ k ih => exact reaches_succ.2 ⟨s, step_of_ended hstage hend, ih⟩

/-- Settles O31: a run leaves what no step writes. -/
theorem runsNeverWriteCodeOrSizes : Obligations.RunsNeverWriteCodeOrSizes := by
  unfold Obligations.RunsNeverWriteCodeOrSizes
  intro k s t h
  have hfixed := reaches_sameFixed h
  exact ⟨hfixed.code, congrArg List.length hfixed.code, hfixed.ioSize, hfixed.dataSize,
    hfixed.codeSymbols, hfixed.dataSymbols⟩

theorem PortEffect.data {s u : State} (h : PortEffect s u) : u.data = s.data := by cases h; rfl

theorem PortEffect.pc {s u : State} (h : PortEffect s u) : u.pc = s.pc := by cases h; rfl

theorem PortEffect.runState {s u : State} (h : PortEffect s u) : u.runState = s.runState := by cases h; rfl

theorem PortEffect.haltValue {s u : State} (h : PortEffect s u) : u.haltValue = s.haltValue := by cases h; rfl

/-- The settled answers a port effect leaves. -/
theorem PortEffect.answers {s u : State} (h : PortEffect s u) :
    (u.inAnswers = s.inAnswers ∨ u.inAnswers = s.inAnswers.tail) ∧
    (u.outAnswers = s.outAnswers ∨ u.outAnswers = s.outAnswers.tail) := by
  obtain ⟨ins, outs, tr, hins, houts⟩ := h
  exact ⟨hins, houts⟩

theorem SubleqOutcome.answers {s t : State} {x y z : Operand} (h : SubleqOutcome s x y z t) :
    (t.inAnswers = s.inAnswers ∨ t.inAnswers = s.inAnswers.tail) ∧
    (t.outAnswers = s.outAnswers ∨ t.outAnswers = s.outAnswers.tail) := by
  cases h with
  | failed k hk u hu ht => exact ht ▸ hu.answers
  | halted ea hres hio v u hu l htrace ht => exact ht ▸ hu.answers
  | continued ea hres hio u hu ht => exact ht ▸ hu.answers
  | stored ea hres hio hd new u hu ht => exact ht ▸ hu.answers

/-- A SUBLEQ writes no data word, or the one at the resolved B, which is in ordinary memory. -/
theorem SubleqOutcome.data_cases {s t : State} {x y z : Operand} (h : SubleqOutcome s x y z t) :
    t.data = s.data ∨ ∃ ea new, resolveAll s x y z = .ok ea ∧ s.ioSize ≤ ea.b ∧ ea.b < s.dataSize ∧
      t.data = Memory.write s.data ea.b new := by
  cases h with
  | failed k hk u hu ht => exact .inl (ht ▸ hu.data)
  | halted ea hres hio v u hu l htrace ht => exact .inl (ht ▸ hu.data)
  | continued ea hres hio u hu ht => exact .inl (ht ▸ hu.data)
  | stored ea hres hio hd new u hu ht => exact .inr ⟨ea, new, hres, hio, hd, by simp [ht, hu.data]⟩

/-- `haltValue` changes in a halting cycle alone. -/
theorem SubleqOutcome.haltValue_cases {s t : State} {x y z : Operand} (h : SubleqOutcome s x y z t) :
    t.haltValue = s.haltValue ∨ t.runState = .halted := by
  cases h with
  | failed k hk u hu ht => exact .inl (ht ▸ hu.haltValue)
  | halted ea hres hio v u hu l htrace ht => exact .inr (ht ▸ rfl)
  | continued ea hres hio u hu ht => exact .inl (ht ▸ hu.haltValue)
  | stored ea hres hio hd new u hu ht => exact .inl (ht ▸ hu.haltValue)

/-- Settles O28: the parts of the frame are those of the outcome; where the resolution failed, the cycle only
enters the fault. -/
theorem subleqFrame : Obligations.SubleqFrame := by
  unfold Obligations.SubleqFrame
  intro s t x y z h
  have houtcome := (exec_cases h).outcome
  obtain ⟨hcode, hio, hds, hcs, hdsym, hstage⟩ := houtcome.sameFixed
  obtain ⟨hins, houts⟩ := houtcome.answers
  refine ⟨hcode, hio, hds, hcs, hdsym, hstage, hins, houts, houtcome.haltValue_cases, fun k herr => ?error,
    fun ea hres => ?resolved⟩
  case error =>
    cases (exec_of_error herr).symm.trans h
    exact ⟨rfl, rfl⟩
  case resolved =>
    obtain hdata | ⟨ea', new, hres', hmem, -, hdata⟩ := houtcome.data_cases
    · exact ⟨fun i _ => by simp only [State.dataWord, hdata], fun _ => hdata⟩
    · cases hres.symm.trans hres'
      refine ⟨fun i hi => ?_, fun hport => absurd hport (Nat.not_lt.2 hmem)⟩
      simpa only [State.dataWord, hdata] using Memory.read_write_other s.data new hi

/-- Settles O29: the two outcomes that go on keep the loop running, and the others change the loop's state
and what the ports change, a halt the halt value too. -/
theorem endingCyclesWriteNothing : Obligations.EndingCyclesWriteNothing := by
  unfold Obligations.EndingCyclesWriteNothing
  intro s t hruns h
  cases step_cases h with
  | ended hstage hend ht => exact absurd hruns.2 hend
  | fetch _ hc ht => exact ht ▸ ⟨fun _ => ⟨rfl, rfl⟩, fun k hk => by cases hk; rfl, fun _ => hc⟩
  | exec _ hc x y z hwf hi hcase =>
    cases hcase.outcome with
    | failed k hk u hu ht =>
      refine ht ▸ ⟨fun _ => ⟨hu.pc, hu.data⟩, fun k' hk' => ?_, fun hcode => ?_⟩
      · cases hk'
        cases hu
        rfl
      · cases hcode
        exact absurd rfl hk
    | halted ea hres hio v u hu l htrace ht => exact ht ▸ ⟨fun _ => ⟨hu.pc, hu.data⟩, nofun, nofun⟩
    | continued ea hres hio u hu ht =>
      have hrunning : t.runState = .running := ht ▸ hu.runState.trans hruns.2
      simp [hrunning]
    | stored ea hres hio hd new u hu ht =>
      have hrunning : t.runState = .running := ht ▸ hu.runState.trans hruns.2
      simp [hrunning]

/-- Settles O30: a failed fetch and a failed SUBLEQ are the fault; each other outcome of a SUBLEQ is its row,
the stored word deciding between the last two. -/
theorem fiveOutcomesOfPc : Obligations.FiveOutcomesOfPc := by
  unfold Obligations.FiveOutcomesOfPc
  intro s t hinv hruns h
  cases step_cases h with
  | ended hstage hend ht => exact absurd hruns.2 hend
  | fetch _ hc ht => exact .inl (ht ▸ ⟨⟨_, rfl⟩, rfl⟩)
  | exec _ hc x y z hwf hi hcase =>
    have hnext : s.pc + 3 ≤ Config.maxIndex := hinv.pc_add_three_le hc
    cases hcase.outcome with
    | failed k hk u hu ht => exact .inl (ht ▸ ⟨⟨k, rfl⟩, hu.pc⟩)
    | halted ea hres hio v u hu l htrace ht =>
      exact .inr ⟨x, y, z, _, ea, hi, hres, .inl (ht ▸ ⟨hio, rfl, hu.pc⟩)⟩
    | continued ea hres hio u hu ht =>
      exact .inr ⟨x, y, z, _, ea, hi, hres,
        .inr (.inl (ht ▸ ⟨hio, hu.runState.trans hruns.2, rfl, hnext⟩))⟩
    | stored ea hres hio hd new u hu ht =>
      refine .inr ⟨x, y, z, _, ea, hi, hres, .inr (.inr ?_)⟩
      obtain ⟨-, -, -, -, hwfdata, -, -⟩ := hinv.ports hu
      have hrunning : t.runState = .running := ht ▸ hu.runState.trans hruns.2
      have hword : t.dataWord ea.b = new := by
        rw [ht, State.setPc_dataWord, dataWord_storeData hwfdata, if_pos rfl]
      have hpc : t.pc = if new.toInt ≤ 0 then ea.c else s.pc + 3 := by
        rw [ht, State.setPc_pc]
        simp only [branches_iff]
      rw [hword, hpc]
      by_cases hbranch : new.toInt ≤ 0
      · exact .inr ⟨hio, hrunning, hbranch, if_pos hbranch⟩
      · rw [if_neg hbranch]
        exact .inl ⟨hio, hrunning, by omega, rfl, hnext⟩

/-- Settles O36: of the outcomes of a running machine's cycle only the halting one ends in Halted. -/
theorem onlyAHaltAnswerHalts : Obligations.OnlyAHaltAnswerHalts := by
  unfold Obligations.OnlyAHaltAnswerHalts
  intro s t hruns h hhalted
  cases step_cases h with
  | ended hstage hend ht => exact absurd hruns.2 hend
  | fetch _ hc ht => cases ht ▸ hhalted
  | exec _ hc x y z hwf hi hcase =>
    cases hcase.outcome with
    | failed k hk u hu ht => cases ht ▸ hhalted
    | halted ea hres hio v u hu l htrace ht =>
      exact ⟨v, ea.b, l, hio, ht ▸ htrace, ht ▸ rfl, ht ▸ hu.data, ht ▸ hu.pc⟩
    | continued ea hres hio u hu ht =>
      have hrunning : t.runState = .running := ht ▸ hu.runState.trans hruns.2
      cases hrunning.symm.trans hhalted
    | stored ea hres hio hd new u hu ht =>
      have hrunning : t.runState = .running := ht ▸ hu.runState.trans hruns.2
      cases hrunning.symm.trans hhalted

/-! How a run ended, and what is observed of it (spec R29, R39, R187). -/

theorem runEnd_eq_halted {s : State} {v : Word} :
    s.runEnd = some (.halted v) ↔ s.runState = .halted ∧ s.haltValue = some v := by
  cases hr : s.runState <;> cases hv : s.haltValue <;> simp [State.runEnd, hr, hv]

theorem runEnd_eq_failed {s : State} {k : FaultKind} :
    s.runEnd = some (.failed k) ↔ s.runState = .failed k := by
  cases hr : s.runState <;> cases hv : s.haltValue <;> simp [State.runEnd, hr, hv]

theorem runEnd_of_running {s : State} (h : s.runState = .running) : s.runEnd = none := by
  simp [State.runEnd, h]

theorem observe_eq_none {s : State} : s.observe = none ↔ s.runEnd = none := by
  cases he : s.runEnd <;> simp [State.observe, he]

theorem observe_eq_some {s : State} {o : Observation} :
    s.observe = some o ↔
      s.runEnd = some o.ending ∧ s.data = o.data ∧ s.pc = o.pc ∧ s.trace = o.trace := by
  obtain ⟨ending, data, pc, trace⟩ := o
  cases he : s.runEnd <;> simp [State.observe, he]

theorem readHaltValue_of_halted {s : State} {v : Word} (hr : s.runState = .halted)
    (hv : s.haltValue = some v) : readHaltValue s = .next v := by
  simp [readHaltValue, hr, hv]

theorem readHaltValue_of_not_halted {s : State} (hr : s.runState ≠ .halted) :
    readHaltValue s = .refused .noHaltValue := by
  cases hs : s.runState <;> simp_all [readHaltValue]

/-- Settles O45: the invariant gives a halted machine its halt value, with which the run ended, and takes it
from the others. -/
theorem haltValueOnlyWhenHalted : Obligations.HaltValueOnlyWhenHalted := by
  unfold Obligations.HaltValueOnlyWhenHalted
  intro s hinv
  have hhalted (hr : s.runState = .halted) : ∃ v, s.haltValue = some v := by
    obtain ⟨-, -, -, -, -, -, hhalt⟩ := hinv
    exact Option.isSome_iff_exists.1 (hhalt.1 hr)
  refine ⟨fun hr => ?halted, fun hr => ⟨hinv.haltValue_eq_none hr, readHaltValue_of_not_halted hr⟩,
    fun k => runEnd_eq_failed.2, runEnd_of_running, fun hnone => ?running⟩
  case halted =>
    obtain ⟨v, hv⟩ := hhalted hr
    exact ⟨v, hv, readHaltValue_of_halted hr hv, runEnd_eq_halted.2 ⟨hr, hv⟩⟩
  case running =>
    cases hr : s.runState with
    | running => rfl
    | halted =>
      obtain ⟨v, hv⟩ := hhalted hr
      cases hnone.symm.trans (runEnd_eq_halted.2 ⟨hr, hv⟩)
    | failed k => cases hnone.symm.trans (runEnd_eq_failed.2 hr)

/-- Settles O49: the observation carries the run's end, and a cycle that ended the run left data and pc
(R156). -/
theorem endOfRunObservation : Obligations.EndOfRunObservation := by
  unfold Obligations.EndOfRunObservation
  refine ⟨fun s hinv => ?states, fun s t o hruns hstep hobs => ?cycle⟩
  case states =>
    obtain ⟨hhalted, -, hfailed, hrunning⟩ := haltValueOnlyWhenHalted s hinv
    refine ⟨fun hr => observe_eq_none.2 (hrunning.1 hr), fun hr => ?_, fun k hr => ?_⟩
    · obtain ⟨v, hv, -, hend⟩ := hhalted hr
      exact ⟨v, hv, observe_eq_some.2 ⟨hend, rfl, rfl, rfl⟩⟩
    · exact observe_eq_some.2 ⟨hfailed k hr, rfl, rfl, rfl⟩
  case cycle =>
    obtain ⟨hend, hdata, hpc, htrace⟩ := observe_eq_some.1 hobs
    have hover : t.runState ≠ .running := fun hr => by cases (runEnd_of_running hr).symm.trans hend
    obtain ⟨hleft, -, -⟩ := endingCyclesWriteNothing s t hruns hstep
    obtain ⟨hpc', hdata'⟩ := hleft hover
    have hending (e : RunEnd) : o.ending = e ↔ t.runEnd = some e := by rw [hend, Option.some_inj]
    exact ⟨hdata.symm.trans hdata', hpc.symm.trans hpc', htrace.symm,
      fun v => (hending _).trans runEnd_eq_halted, fun k => (hending _).trans runEnd_eq_failed⟩

/-! The machines that the host's commands make (spec R200 to R204). -/

/-- Settles O47, by evaluating the invariant at reset. -/
theorem resetMeetsTheInvariant : Obligations.ResetMeetsTheInvariant := by
  unfold Obligations.ResetMeetsTheInvariant
  decide

theorem State.fresh_inv {io ds : Int} (h : SizesAdmitted io ds) (ins : List InAnswer)
    (outs : List OutAnswer) : (State.fresh io.toNat ds.toNat ins outs).Inv := by
  obtain ⟨hio, hle, hds⟩ := h
  exact ⟨Int.toNat_le_toNat hle, Int.toNat_le.2 hds, Nat.zero_le _, Nat.zero_le _, rfl, rfl, nofun, nofun⟩

/-- A load of images that fit keeps the invariant: the data image ends within DATA_SIZE (spec R201). -/
theorem State.Inv.install {s : State} (h : s.Inv) {c d : List Word} (hfits : s.Fits c d)
    (p q : SymbolTable) : (s.install c d p q).Inv := by
  obtain ⟨hio, hds, -, hpc, hwf, hbelow, hhalt⟩ := h
  obtain ⟨hdata, hcode⟩ := hfits
  have hends : s.ioSize + d.length ≤ s.dataSize := by omega
  exact ⟨hio, hds, hcode, hpc, Memory.wfFrom_writeImage d hwf le_rfl,
    Memory.below_writeImage d hbelow hends, hhalt⟩

/-- At the start of Run the loop runs, no transaction was made, and the invariant holds. -/
theorem boot_next {io ds : Int} {ins : List InAnswer} {outs : List OutAnswer} {image : Option Image}
    {s : State} (h : boot io ds ins outs image = .next s) : s.Runs ∧ s.trace = [] ∧ s.Inv := by
  cases image with
  | none =>
    obtain ⟨hsizes, rfl⟩ := eq_fresh_of_boot_none h
    exact ⟨⟨rfl, rfl⟩, rfl, State.fresh_inv hsizes ins outs⟩
  | some m =>
    obtain ⟨hsizes, hfits, rfl⟩ := eq_install_of_boot_some h
    exact ⟨⟨rfl, rfl⟩, rfl, (State.fresh_inv hsizes ins outs).install hfits m.codeSymbols m.dataSymbols⟩

/-- Settles O48: the invariant holds at the start of Run and every step keeps it. -/
theorem everyRunMeetsTheInvariant : Obligations.EveryRunMeetsTheInvariant := by
  unfold Obligations.EveryRunMeetsTheInvariant
  intro io ds ins outs image s t k hboot hreaches
  obtain ⟨hruns, htrace, hinv⟩ := boot_next hboot
  exact ⟨hruns, htrace, hinv, reaches_induction stepKeepsTheInvariant hinv hreaches⟩

/-- The backing words of the I/O region read 0 (spec R56). -/
theorem State.Inv.dataWord_below_ioSize {s : State} (h : s.Inv) {a : Nat} (ha : a < s.ioSize) :
    s.dataWord a = 0 := by
  obtain ⟨-, -, -, -, hwf, -, -⟩ := h
  exact Memory.read_below hwf ha

/-- Settles O13: the invariant holds at the start of Run and after a step, and a pointer cell that reads 0
is a pointer that every slot admits. -/
theorem prefixPointersResolveToZero : Obligations.PrefixPointersResolveToZero := by
  unfold Obligations.PrefixPointersResolveToZero
  refine ⟨fun io ds ins outs image s hboot a ha => ?boot,
    fun s hinv => ⟨fun a ha => hinv.dataWord_below_ioSize ha, fun t hstep a ha => ?step,
      fun slot l _ hl => ?resolve⟩⟩
  case boot =>
    obtain ⟨-, -, hinv⟩ := boot_next hboot
    exact hinv.dataWord_below_ioSize ha
  case step =>
    exact (stepKeepsTheInvariant s t hinv hstep).dataWord_below_ioSize ((step_sameFixed hstep).ioSize ▸ ha)
  case resolve =>
    have hzero : (s.dataWord l).toInt = 0 := by rw [hinv.dataWord_below_ioSize hl]; rfl
    obtain ⟨hsizes, -⟩ := hinv
    rw [resolve_indirect_of_admitted (by omega) (by omega) (.inr (by omega)), hzero]
    rfl

end Sys2Proof.Machine

/-! SUPPORT. The order of a cycle's checks (spec 40, 60 R179), its forms (spec 41, 42) and the corner cases
(spec 42 section 4, spec 30 R82). -/

namespace Sys2Proof.Machine

/-- Settles O14: a failed slot is the failure of the resolution, which a SUBLEQ raises and nothing else. -/
theorem resolutionFaultsInOrder : Obligations.ResolutionFaultsInOrder := by
  unfold Obligations.ResolutionFaultsInOrder
  intro s x y z k
  exact ⟨fun ha => exec_of_error (resolveAll_of_a y z ha),
    fun _ ha hb => exec_of_error (resolveAll_of_b z ha hb),
    fun _ _ ha hb hc => exec_of_error (resolveAll_of_c ha hb hc)⟩

/-- Settles O15: a failed slot C ends the cycle as in O14, and the kind that slot C excludes is
OutOfMemoryRangeError. -/
theorem faultInCEndsTheCycle : Obligations.FaultInCEndsTheCycle := by
  unfold Obligations.FaultInCEndsTheCycle
  intro s x y z ea eb k ha hb hc
  refine ⟨?kind, exec_of_error (resolveAll_of_c ha hb hc)⟩
  obtain hindex | hdouble | ⟨-, hslot⟩ := resolve_eq_error hc
  · exact .inr hindex
  · exact .inl hdouble
  · exact absurd rfl hslot

/-! The two selectors on the handlers' own answers (spec R37, R38). -/

theorem sourceSelect_of_returns {s : State} {a : Nat} {v : Word} (hio : a < s.ioSize)
    (hanswer : s.inAnswer a = .returns v none) :
    sourceSelect s a = .value v (s.recordIn a (.value v)) :=
  sourceSelect_value hio (by rw [hanswer, inResponse_no_error])

theorem sourceSelect_of_returns_error {s : State} {a : Nat} {v : Word} {e : HostError} (hio : a < s.ioSize)
    (hanswer : s.inAnswer a = .returns v (some e)) :
    sourceSelect s a = .failed (.handlerError e) (s.recordIn a (.error e)) :=
  sourceSelect_error hio (by rw [hanswer, inResponse_with_error])

theorem sourceSelect_of_never {s : State} {a : Nat} (hio : a < s.ioSize) (hanswer : s.inAnswer a = .never) :
    sourceSelect s a = .stuck a :=
  sourceSelect_never hio (inResponse_eq_none.2 hanswer)

theorem destSelect_of_never {s : State} {v : Word} {eb : Nat} (ec : Nat) (hio : eb < s.ioSize)
    (hanswer : s.outAnswer v eb = .never) : destSelect s v eb ec = .fault (.outputNeverAnswered v eb) :=
  destSelect_never ec hio (outResponse_eq_none.2 hanswer)

/-- The source selector leaves IO_SIZE. -/
theorem sourceSelect_value_ioSize {s s1 : State} {a : Nat} {v : Word} (h : sourceSelect s a = .value v s1) :
    s1.ioSize = s.ioSize :=
  (sourceSelect_value_ports h).1.sameFixed.ioSize

/-- Settles O16, by the four answers of the source selector. -/
theorem sourceSelectorRule : Obligations.SourceSelectorRule := by
  unfold Obligations.SourceSelectorRule
  intro s x y z ea hres
  refine ⟨fun hio v hanswer => ?value, fun hio v e hanswer => ?error, fun hio hd => ?memory,
    fun hio hd => ?outside⟩
  case value =>
    have hsource := sourceSelect_of_returns hio hanswer
    exact ⟨_, rfl, hsource, exec_of_value hres hsource⟩
  case error => exact exec_of_failed hres (sourceSelect_of_returns_error hio hanswer)
  case memory =>
    have hsource := sourceSelect_memory hio hd
    exact ⟨hsource, exec_of_value hres hsource⟩
  case outside => exact exec_of_failed hres (sourceSelect_outside hio hd)

/-- A Halt answer: the value's negation is the halt value, and pc and data stay (spec R125). -/
theorem exec_of_halt_answer {s s1 : State} {x y z : Operand} {ea : Resolved} {v : Word}
    (hres : resolveAll s x y z = .ok ea) (hsource : sourceSelect s ea.a = .value v s1)
    (hio : ea.b < s.ioSize) (hanswer : s1.outAnswer v ea.b = .returns true none) :
    exec (.subleq x y z) s = .next
      { s with runState := .halted, haltValue := some (wrap64 (-v.toInt)), inAnswers := s1.inAnswers,
               outAnswers := s1.outAnswers.tail, trace := s1.trace ++ [.output v ea.b .halt] } := by
  obtain ⟨ins, tr, rfl⟩ := sourceSelect_value_frame hsource
  exact (exec_of_value hres hsource).trans
    (destSelect_halt ea.c hio (by rw [hanswer, outResponse_halt]))

/-- Settles O20: the state after the Halt answer, which is an ended one. -/
theorem outputHaltStopsTheLoop : Obligations.OutputHaltStopsTheLoop := by
  unfold Obligations.OutputHaltStopsTheLoop
  intro s s1 x y z ea v hres hsource hio hanswer
  exact ⟨_, exec_of_halt_answer hres hsource hio hanswer, rfl,
    fun hstage k => endedRunsStay _ k hstage nofun⟩

/-- Settles O22: the input's value meets the output port in the state that holds the input. -/
theorem inputThenOutput : Obligations.InputThenOutput := by
  unfold Obligations.InputThenOutput
  rintro s _ x y z ea v hres hioA hioB hin rfl
  have hsource := sourceSelect_of_returns hioA hin
  refine ⟨fun hout => ?continues, fun hout => ?halts⟩
  case continues =>
    simpa using outputContinueAdvancesByThree s _ x y z ea v hres hsource hioB hout
  case halts => simpa using exec_of_halt_answer hres hsource hioB hout

/-- Settles O17: the memory path with the data word as operand A's value. -/
theorem subleqInMemoryCompletes : Obligations.SubleqInMemoryCompletes := by
  unfold Obligations.SubleqInMemoryCompletes
  intro s x y z ea hinv hres hioA hdA hioB hdB
  exact (memoryPathRule s s x y z ea _ hinv hres (sourceSelect_memory hioA hdA) hioB).2 hdB

/-- Settles O23: A's bound is the source selector's, B's the memory path's, whose state holds the input
transaction. -/
theorem boundsAreCheckedAtTheAccess : Obligations.BoundsAreCheckedAtTheAccess := by
  unfold Obligations.BoundsAreCheckedAtTheAccess
  intro s x y z ea hinv hres
  obtain ⟨hsizes, -⟩ := id hinv
  refine ⟨fun hd => ?boundA, fun hdA hioA hdB => ?boundB, fun hioA hdB v hanswer => ?afterInput⟩
  case boundA => exact exec_of_failed hres (sourceSelect_outside (hsizes.trans hd) hd)
  case boundB =>
    exact (memoryPathRule s s x y z ea _ hinv hres (sourceSelect_memory hioA hdA) (hsizes.trans hdB)).1 hdB
  case afterInput =>
    exact (memoryPathRule s _ x y z ea v hinv hres (sourceSelect_of_returns hioA hanswer)
      (hsizes.trans hdB)).1 hdB

/-! The transactions of a cycle. -/

/-- Settles O34: the output transaction is the destination selector's, which adds it to the trace the source
selector left. -/
theorem outputTransactionExactlyOnce : Obligations.OutputTransactionExactlyOnce := by
  unfold Obligations.OutputTransactionExactlyOnce
  intro s t x y z ea hres h
  have hdest {v : Word} {s1 : State} (hsource : sourceSelect s ea.a = .value v s1) :
      ∃ l, t.trace = s1.trace ++ l ∧ DestTrace s1 v ea.b l :=
    (destSelect_cases ((exec_of_value hres hsource).symm.trans h)).trace
  refine ⟨fun v s1 hsource hio => ?port, fun v s1 hsource hio => ?memory, fun k s1 hsource => ?failed⟩
  case port =>
    obtain ⟨l, htrace, hl⟩ := hdest hsource
    obtain ⟨r, rfl⟩ := hl.port (sourceSelect_value_ioSize hsource ▸ hio)
    exact ⟨r, htrace⟩
  case memory =>
    obtain ⟨l, htrace, hl⟩ := hdest hsource
    rw [htrace, hl.memory (sourceSelect_value_ioSize hsource ▸ hio), List.append_nil]
  case failed =>
    cases (exec_of_failed hres hsource).symm.trans h
    rfl

/-- The transactions that one cycle adds to the trace, each at an I/O address. -/
inductive CycleTrace (s : State) : List Transaction → Prop where
  | none : CycleTrace s []
  | input (a : Nat) (r : InResponse) (ha : a < s.ioSize) : CycleTrace s [.input a r]
  | output (v : Word) (b : Nat) (r : OutResponse) (hb : b < s.ioSize) : CycleTrace s [.output v b r]
  | both (a : Nat) (v : Word) (b : Nat) (r : OutResponse) (ha : a < s.ioSize) (hb : b < s.ioSize) :
      CycleTrace s [.input a (.value v), .output v b r]

theorem CycleTrace.length_le {s : State} {l : List Transaction} (h : CycleTrace s l) : l.length ≤ 2 := by
  cases h <;> simp

theorem CycleTrace.eq_nil {s : State} {l : List Transaction} (h : CycleTrace s l) (hio : s.ioSize = 0) :
    l = [] := by
  cases h with
  | none => rfl
  | input a r ha => omega
  | output v b r hb => omega
  | both a v b r ha hb => omega

theorem SourceTrace.cycleTrace {s : State} {a : Nat} {l : List Transaction} (h : SourceTrace s a l) :
    CycleTrace s l := by
  rcases Nat.lt_or_ge a s.ioSize with hio | hio
  · obtain ⟨r, rfl⟩ := h.port hio
    exact .input a r hio
  · exact h.memory hio ▸ .none

theorem DestTrace.cycleTrace {s : State} {v : Word} {b : Nat} {l : List Transaction}
    (h : DestTrace s v b l) : CycleTrace s l := by
  rcases Nat.lt_or_ge b s.ioSize with hio | hio
  · obtain ⟨r, rfl⟩ := h.port hio
    exact .output v b r hio
  · exact h.memory hio ▸ .none

/-- Behind an input, the destination selector's part is the output of its value, or nothing. -/
theorem DestTrace.cycleTrace_cons {s : State} {v : Word} {a b : Nat} {l : List Transaction}
    (h : DestTrace s v b l) (ha : a < s.ioSize) : CycleTrace s (.input a (.value v) :: l) := by
  rcases Nat.lt_or_ge b s.ioSize with hio | hio
  · obtain ⟨r, rfl⟩ := h.port hio
    exact .both a v b r ha hio
  · exact h.memory hio ▸ .input a (.value v) ha

theorem SubleqCase.trace {s t : State} {x y z : Operand} (h : SubleqCase s x y z t) :
    ∃ l, t.trace = s.trace ++ l ∧ CycleTrace s l := by
  cases h with
  | resolution k herr ht => exact ⟨[], by simp [ht], .none⟩
  | source ea hres k s1 hs ht =>
    obtain ⟨l, htrace, hl⟩ := sourceSelect_failed_trace hs
    exact ⟨l, ht ▸ htrace, hl.cycleTrace⟩
  | dest ea hres v s1 hs hdest =>
    obtain ⟨l, htrace, hl⟩ := hdest.trace
    obtain ⟨hioA, -, rfl⟩ | ⟨-, -, -, rfl⟩ := sourceSelect_value_cases hs
    · have hl' : DestTrace s v ea.b l := ⟨hl.port, hl.memory⟩
      exact ⟨_, by rw [htrace, State.recordIn_trace, List.append_assoc]; rfl, hl'.cycleTrace_cons hioA⟩
    · exact ⟨l, htrace, hl.cycleTrace⟩

theorem step_trace {s t : State} (h : step s = .next t) :
    ∃ l, t.trace = s.trace ++ l ∧ CycleTrace s l := by
  cases step_cases h with
  | ended hstage hend ht => exact ⟨[], by simp [ht], .none⟩
  | fetch hruns hc ht => exact ⟨[], by simp [ht], .none⟩
  | exec hruns hc x y z hwf hi hcase => exact hcase.trace

/-- Settles O35: the transactions of one cycle, and by induction on the cycles at most two for each. -/
theorem traceGrowsInProgramOrder : Obligations.TraceGrowsInProgramOrder := by
  unfold Obligations.TraceGrowsInProgramOrder
  refine ⟨fun s t h => ?cycle, fun k => ?run⟩
  case cycle =>
    obtain ⟨l, htrace, hl⟩ := step_trace h
    refine ⟨l, htrace, ?_⟩
    cases hl with
    | none => exact .inl rfl
    | input a r ha => exact .inr (.inl ⟨a, r, rfl⟩)
    | output v b r hb => exact .inr (.inr (.inl ⟨v, b, r, rfl⟩))
    | both a v b r ha hb => exact .inr (.inr (.inr ⟨a, v, b, r, rfl⟩))
  case run =>
    induction k with
    | zero =>
      intro s t h
      exact ⟨[], by simp [reaches_zero.1 h], Nat.le_refl 0⟩
    | succ k ih =>
      intro s t h
      obtain ⟨u, hstep, hrest⟩ := reaches_succ.1 h
      obtain ⟨l, htrace, hl⟩ := step_trace hstep
      obtain ⟨l', htrace', hlength⟩ := ih u t hrest
      refine ⟨l ++ l', by rw [htrace', htrace, List.append_assoc], ?_⟩
      have hcycle := hl.length_le
      rw [List.length_append]
      omega

/-! When a cycle has no next state (spec R132, R187). -/

/-- The destination selector has no next state only for an output handler that never returns. -/
theorem destSelect_next_or_never (s : State) (v : Word) (eb ec : Nat) :
    (∃ t, destSelect s v eb ec = .next t) ∨ (eb < s.ioSize ∧ s.outAnswer v eb = .never) := by
  by_cases hio : eb < s.ioSize
  · rcases hr : outResponse (s.outAnswer v eb) with _ | _ | _ | ⟨e⟩
    · exact .inr ⟨hio, outResponse_eq_none.1 hr⟩
    · exact .inl ⟨_, destSelect_proceed ec hio hr⟩
    · exact .inl ⟨_, destSelect_halt ec hio hr⟩
    · exact .inl ⟨_, destSelect_error ec hio hr⟩
  · by_cases hd : eb < s.dataSize
    · exact .inl ⟨_, destSelect_memory v ec (by omega) hd⟩
    · exact .inl ⟨_, destSelect_outside v ec (by omega) (by omega)⟩

/-- Settles O39: each selector is stuck where its handler never returns. -/
theorem silentHostIsStuck : Obligations.SilentHostIsStuck := by
  unfold Obligations.SilentHostIsStuck
  intro s x y z ea hres
  refine ⟨fun hio hanswer => exec_of_stuck hres (sourceSelect_of_never hio hanswer),
    fun v s1 hsource hio hanswer => ?_⟩
  rw [exec_of_value hres hsource]
  exact destSelect_of_never ea.c (sourceSelect_value_ioSize hsource ▸ hio) hanswer

/-- Settles O38, along the order of a cycle: resolution and a failed source selector give a next state, and
where a selector gives none its handler never returns. -/
theorem onlyASilentHostStopsACycle : Obligations.OnlyASilentHostStopsACycle := by
  unfold Obligations.OnlyASilentHostStopsACycle
  intro s x y z
  cases hres : resolveAll s x y z with
  | error k => exact .inl ⟨_, exec_of_error hres⟩
  | ok ea =>
    obtain ⟨hstuckIn, hstuckOut⟩ := silentHostIsStuck s x y z ea hres
    cases hsource : sourceSelect s ea.a with
    | failed k s1 => exact .inl ⟨_, exec_of_failed hres hsource⟩
    | stuck a =>
      obtain ⟨-, hio, hr⟩ := sourceSelect_stuck_cases hsource
      have hanswer := inResponse_eq_none.1 hr
      exact .inr (.inl ⟨ea, rfl, hio, hanswer, hstuckIn hio hanswer⟩)
    | value v s1 =>
      obtain ⟨t, ht⟩ | ⟨hio, hanswer⟩ := destSelect_next_or_never s1 v ea.b ea.c
      · exact .inl ⟨t, (exec_of_value hres hsource).trans ht⟩
      · rw [sourceSelect_value_ioSize hsource] at hio
        exact .inr (.inr ⟨ea, v, s1, rfl, hsource, hio, hanswer, hstuckOut v s1 hsource hio hanswer⟩)

/-- With IO_SIZE = 0 a step makes no transaction and does not halt: either needs an I/O address. -/
theorem step_without_io {s t : State} (hio : s.ioSize = 0) (h : step s = .next t) :
    t.trace = s.trace ∧ (s.runState ≠ .halted → t.runState ≠ .halted) := by
  constructor
  · obtain ⟨l, htrace, hl⟩ := step_trace h
    rw [htrace, hl.eq_nil hio, List.append_nil]
  · intro hs ht
    have halts (hruns : s.Runs) : False := by
      obtain ⟨v, b, l, hb, -⟩ := onlyAHaltAnswerHalts s t hruns h ht
      omega
    cases step_cases h with
    | ended hstage hend heq => exact hs (heq ▸ ht)
    | fetch hruns hc heq => exact halts hruns
    | exec hruns hc x y z hwf hi hcase => exact halts hruns

/-- With IO_SIZE = 0 a started machine always steps: no handler is asked. -/
theorem exists_step_without_io {s : State} (hio : s.ioSize = 0) (hstage : s.stage = .started) :
    ∃ t, step s = .next t := by
  by_cases hr : s.runState = .running
  · rcases Nat.lt_or_ge (s.pc + 2) s.codeSize with hc | hc
    · rw [step_of_fetch ⟨hstage, hr⟩ hc]
      obtain hnext | ⟨ea, -, ha, -⟩ | ⟨ea, v, s1, -, -, hb, -⟩ := onlyASilentHostStopsACycle s _ _ _
      · exact hnext
      · omega
      · omega
    · exact ⟨_, step_of_fault ⟨hstage, hr⟩ hc⟩
  · exact ⟨_, step_of_ended hstage hr⟩

/-- Settles O37, by the step lemmas; IO_SIZE stays 0 over the run. -/
theorem withoutIoNoRunHalts : Obligations.WithoutIoNoRunHalts := by
  unfold Obligations.WithoutIoNoRunHalts
  refine fun s hio => ⟨fun k => ?run, exists_step_without_io hio⟩
  induction k generalizing s with
  | zero =>
    intro t h
    cases reaches_zero.1 h
    exact ⟨rfl, id⟩
  | succ k ih =>
    intro t h
    obtain ⟨u, hstep, hrest⟩ := reaches_succ.1 h
    obtain ⟨htrace, hhalt⟩ := step_without_io hio hstep
    obtain ⟨htrace', hhalt'⟩ := ih u ((step_sameFixed hstep).ioSize.trans hio) t hrest
    exact ⟨htrace'.trans htrace, fun hs => hhalt' (hhalt hs)⟩

/-! Arithmetic and the corner cases. -/

/-- Settles O27: `wrap64` is congruent to its argument and exact on the range of a word. -/
theorem arithmeticWraps : Obligations.ArithmeticWraps := by
  unfold Obligations.ArithmeticWraps
  refine ⟨fun b a => ⟨wrap64_emod _, wrap64_emod _, toInt_ofInt_of_range⟩, ?examples⟩
  decide

/-- A SUBLEQ on one data word with itself clears the word and branches (spec R149). -/
theorem exec_same_word {s : State} {x y z : Operand} {ea : Resolved} (hinv : s.Inv)
    (hres : resolveAll s x y z = .ok ea) (hsame : ea.a = ea.b) (hio : s.ioSize ≤ ea.a)
    (hd : ea.a < s.dataSize) :
    ∃ t, exec (.subleq x y z) s = .next t ∧ (∀ i, t.dataWord i = if i = ea.a then 0 else s.dataWord i) ∧
      t.pc = ea.c ∧ t = { s with data := t.data, pc := t.pc } := by
  obtain ⟨t, hexec, hword, hpc, hframe⟩ :=
    subleqInMemoryCompletes s x y z ea hinv hres hio hd (hsame ▸ hio) (hsame ▸ hd)
  rw [← hsame] at hword hpc
  have hword' (i : Nat) : t.dataWord i = if i = ea.a then 0 else s.dataWord i := by
    rw [hword, Int.sub_self]
    rfl
  refine ⟨t, hexec, hword', ?_, hframe⟩
  rw [hpc, hword', if_pos rfl, if_pos (by decide)]

/-- Settles O24: in memory the word is cleared; at the ports the output carries the input's value. -/
theorem sameLocationClearsAndBranches : Obligations.SameLocationClearsAndBranches := by
  unfold Obligations.SameLocationClearsAndBranches
  intro s x y z ea hinv hres hsame
  refine ⟨fun hio hd => ?memory, fun hio v t hanswer hexec => ?ports⟩
  case memory =>
    obtain ⟨t, hexec, hword, hpc, hframe⟩ := exec_same_word hinv hres hsame hio hd
    exact ⟨t, hexec, by rw [hword, if_pos rfl], hpc, hframe⟩
  case ports =>
    obtain ⟨hport, -, -⟩ := outputTransactionExactlyOnce s t x y z ea hres hexec
    obtain ⟨r, htrace⟩ := hport v _ (sourceSelect_of_returns hio hanswer) (hsame ▸ hio)
    exact ⟨r, by rw [htrace, State.recordIn_trace, List.append_assoc, hsame]; rfl⟩

/-- Settles O25: a resolved pointer is the cell's old value, and the store leaves the new one in the cell. -/
theorem pointerWriteActsFromTheNextCycle : Obligations.PointerWriteActsFromTheNextCycle := by
  unfold Obligations.PointerWriteActsFromTheNextCycle
  intro s x y z ea hinv hres hioA hdA hioB hdB
  obtain ⟨t, hexec, hword, hpc, hframe⟩ :=
    subleqInMemoryCompletes s x y z ea hinv hres hioA hdA hioB hdB
  obtain ⟨hresA, hresB, hresC⟩ := resolveAll_eq_ok.1 hres
  have hold {slot : Slot} {n : Nat} (h : resolve s slot (.indirect ea.b) = .ok n) :
      (n : Int) = (s.dataWord ea.b).toInt := by
    obtain ⟨-, hvalue, -⟩ := resolve_indirect_eq_ok h
    exact hvalue
  have hsize : t.dataSize = s.dataSize := by rw [hframe]
  refine ⟨t, hexec, by rw [hword, if_pos rfl], ?slotA, ?slotB, ?slotC,
    fun slot => resolve_indirect_of_lt slot (hsize ▸ hdB)⟩
  case slotA =>
    rintro rfl
    exact hold hresA
  case slotB =>
    rintro rfl
    exact hold hresB
  case slotC =>
    rintro rfl hbranch
    rw [hpc, if_pos hbranch]
    exact hold hresC

theorem resolveAll_direct (s : State) (a b c : Nat) :
    resolveAll s (.direct a) (.direct b) (.direct c) = .ok ⟨a, b, c⟩ := rfl

/-- Settles O26, idiom by idiom: jmp and clr act on one word with itself, out and halt on the output port, in
on the memory path with the input's value, and echo on both ports. -/
theorem subleqIdioms : Obligations.SubleqIdioms := by
  unfold Obligations.SubleqIdioms
  intro s x k hinv hio hd
  have hsource : sourceSelect s x = .value (s.dataWord x) s := sourceSelect_memory hio hd
  have hclear (dest : Nat) := exec_same_word hinv (resolveAll_direct s x x dest) rfl hio hd
  refine ⟨fun dest hzero => ?jmp, ?clr, fun _ hk hanswer => ?out, fun z c hio' hz hanswer => ?halt,
    fun v _ hk hanswer => ?reads, fun v _ hk hin hout => ?echo⟩
  case jmp =>
    obtain ⟨t, hexec, hword, hpc, -⟩ := hclear dest
    refine ⟨t, hexec, hpc, fun i => ?_⟩
    rw [hword]
    split
    · next hi => exact hi ▸ hzero.symm
    · rfl
  case clr =>
    obtain ⟨t, hexec, hword, hpc, -⟩ := hclear (s.pc + 3)
    exact ⟨t, hexec, hpc, hword⟩
  case out =>
    exact ⟨_, outputContinueAdvancesByThree s s _ _ _ _ _ (resolveAll_direct s x k (s.pc + 3)) hsource hk
      hanswer, rfl, rfl, rfl⟩
  case halt =>
    have hres : resolveAll s (.direct x) (.direct 0) z = .ok ⟨x, 0, c⟩ :=
      resolveAll_eq_ok.2 ⟨rfl, rfl, hz⟩
    exact ⟨_, exec_of_halt_answer hres hsource hio' hanswer, rfl, rfl, rfl⟩
  case reads =>
    obtain ⟨t, hexec, hword, hpc, -⟩ := (memoryPathRule s _ _ _ _ _ v hinv
      (resolveAll_direct s k x (s.pc + 3)) (sourceSelect_of_returns hk hanswer) hio).2 hd
    exact ⟨t, hexec, by rw [hpc, ite_self], hword⟩
  case echo =>
    obtain ⟨hcontinue, -⟩ := inputThenOutput s _ _ _ _ _ v (resolveAll_direct s k k (s.pc + 3)) hk hk hin rfl
    exact ⟨_, hcontinue hout, rfl, rfl, rfl⟩

end Sys2Proof.Machine

/-! SUPPORT. The degenerate configurations (spec 70 R211). -/

namespace Sys2Proof.Machine

/-- With IO_SIZE = DATA_SIZE there is no ordinary memory, so no step writes a data word. -/
theorem step_data_without_memory {s t : State} (hsizes : s.ioSize = s.dataSize) (h : step s = .next t) :
    t.data = s.data := by
  cases step_cases h with
  | ended hstage hend ht => rw [ht]
  | fetch hruns hc ht => rw [ht, State.raise_data]
  | exec hruns hc x y z hwf hi hcase =>
    obtain hdata | ⟨ea, new, -, hio, hd, -⟩ := hcase.outcome.data_cases
    · exact hdata
    · omega

/-- With DATA_SIZE = 0 no pointer cell exists. -/
theorem resolve_error_without_data {s : State} {slot : Slot} {o : Operand} {k : FaultKind}
    (hzero : s.dataSize = 0) (h : resolve s slot o = .error k) : k = .dataIndexOutOfRange := by
  cases o with
  | direct n => cases h
  | indirect l =>
    cases (resolve_indirect_of_le slot (by omega)).symm.trans h
    rfl

/-- With DATA_SIZE = 0 every SUBLEQ fails: at a pointer cell, or at the access to operand A. -/
theorem exec_without_data {s : State} (hinv : s.Inv) (hzero : s.dataSize = 0) (x y z : Operand) :
    exec (.subleq x y z) s = .next (s.raise .dataIndexOutOfRange) := by
  cases hres : resolveAll s x y z with
  | error k =>
    have hk : k = .dataIndexOutOfRange := by
      rcases resolveAll_eq_error hres with h | h | h <;> exact resolve_error_without_data hzero h
    rw [exec_of_error hres, hk]
  | ok ea => exact (boundsAreCheckedAtTheAccess s x y z ea hinv hres).1 (by omega)

/-- Settles O44, configuration by configuration. -/
theorem degenerateConfigurations : Obligations.DegenerateConfigurations := by
  unfold Obligations.DegenerateConfigurations
  refine ⟨fun s hinv hruns => ⟨fun hshort => ?shortCode, fun hio => ?noIo, fun hsizes => ?onlyIo,
    fun hzero hc => ?noData⟩, fun s slot l _ hslot hl hbig => resolve_indirect_of_big hl hslot hbig⟩
  case shortCode => exact step_of_fault hruns (by omega)
  case noIo =>
    obtain ⟨t, hstep⟩ := exists_step_without_io hio hruns.1
    obtain ⟨htrace, hhalt⟩ := step_without_io hio hstep
    exact ⟨t, hstep, htrace, hhalt (by simp [hruns.2])⟩
  case onlyIo =>
    refine ⟨fun t => step_data_without_memory hsizes, fun n y z ea hn hres => ?operandA,
      fun n x z ea v s1 hn hres hsource => ?operandB⟩
    case operandA =>
      obtain ⟨⟨⟩, -, -⟩ := resolveAll_eq_ok.1 hres
      exact (boundsAreCheckedAtTheAccess s _ y z ea hinv hres).1 hn
    case operandB =>
      obtain ⟨-, ⟨⟩, -⟩ := resolveAll_eq_ok.1 hres
      exact (memoryPathRule s s1 x _ z ea v hinv hres hsource (hsizes.trans_le hn)).1 hn
  case noData => exact (step_of_fetch hruns hc).trans (exec_without_data hinv hzero _ _ _)

end Sys2Proof.Machine

/-! SUPPORT. The host's commands (spec 70 R200 to R204): what they refuse and what they leave. -/

namespace Sys2Proof.Machine

/-- Settles O40: the machine of the admitted sizes, and the refusal of the others. -/
theorem constructionRule : Obligations.ConstructionRule := by
  unfold Obligations.ConstructionRule
  refine fun io ds ins outs => ⟨fun hsizes => ?admitted, fun hsizes => ?refused⟩
  case admitted =>
    obtain ⟨hio, hle, -⟩ := id hsizes
    exact ⟨_, construct_eq_next.2 ⟨hsizes, rfl⟩, Int.toNat_of_nonneg hio,
      Int.toNat_of_nonneg (hio.trans hle), fun _ => rfl, rfl, rfl, rfl⟩
  case refused => exact if_neg hsizes

/-- A load has a next state or is refused. -/
theorem load_next_or_refused (c d : List Word) (p q : SymbolTable) (s : State) :
    (∃ t, load c d p q s = .next t) ∨ ∃ r, load c d p q s = .refused r := by
  unfold load
  split
  · exact .inr ⟨_, rfl⟩
  · exact .inr ⟨_, rfl⟩
  · split
    · exact .inr ⟨_, rfl⟩
    · split
      · exact .inr ⟨_, rfl⟩
      · exact .inl ⟨_, rfl⟩

/-- Settles O41: images that fit are installed, and the words then read are those of the image where it
stands; the others are no next state, hence refused. -/
theorem loadInstallsTheImages : Obligations.LoadInstallsTheImages := by
  unfold Obligations.LoadInstallsTheImages
  intro s m hinv hstage
  obtain ⟨hsizes, -, -, -, hwf, -, -⟩ := hinv
  refine ⟨fun hdata hcode => ?fits, fun hlong => ?tooLong⟩
  case fits =>
    have hword := State.install_dataWord hwf m.code m.data m.codeSymbols m.dataSymbols
    refine ⟨_, load_eq_next.2 ⟨hstage, ⟨by omega, hcode⟩, rfl⟩, rfl, rfl, fun i hi => ?inside,
      fun a ha => ?outside, rfl, rfl, rfl⟩
    case inside =>
      rw [hword, if_pos (by omega), Nat.add_sub_cancel_left]
      rfl
    case outside => rw [hword, if_neg (by omega)]
  case tooLong =>
    obtain ⟨t, hnext⟩ | hrefused := load_next_or_refused m.code m.data m.codeSymbols m.dataSymbols s
    · obtain ⟨-, ⟨hdata, hcode⟩, -⟩ := load_eq_next.1 hnext
      omega
    · exact hrefused

theorem load_of_loaded {s : State} (h : s.stage = .loaded) (c d : List Word) (p q : SymbolTable) :
    load c d p q s = .refused .secondLoad := by
  simp [load, h]

theorem load_of_started {s : State} (h : s.stage = .started) (c d : List Word) (p q : SymbolTable) :
    load c d p q s = .refused .loadAfterRun := by
  simp [load, h]

theorem startRun_of_started {s : State} (h : s.stage = .started) : startRun s = .refused .secondRun := by
  simp [startRun, h]

theorem startRun_of_not_started {s : State} (h : s.stage ≠ .started) :
    startRun s = .next { s with stage := .started } :=
  startRun_eq_next.2 ⟨h, rfl⟩

/-- There is no cycle before Run (spec R204). -/
theorem step_of_not_started {s : State} (h : s.stage ≠ .started) : step s = .refused .runNotIssued := by
  cases hs : s.stage with
  | constructed => simp [step, hs]
  | loaded => simp [step, hs]
  | started => exact absurd hs h

/-- The life up to the start of Run is admitted for all sizes and images that fit (spec R204). -/
theorem exists_boot_next {io ds : Int} (hsizes : SizesAdmitted io ds) (ins : List InAnswer)
    (outs : List OutAnswer) {image : Option Image}
    (hfits : ∀ m, image = some m → (State.fresh io.toNat ds.toNat ins outs).Fits m.code m.data) :
    ∃ s, boot io ds ins outs image = .next s := by
  have hconstruct : construct io ds ins outs = .next (State.fresh io.toNat ds.toNat ins outs) :=
    construct_eq_next.2 ⟨hsizes, rfl⟩
  cases image with
  | none => exact ⟨_, boot_none_eq_next.2 ⟨_, hconstruct, startRun_of_not_started nofun⟩⟩
  | some m =>
    exact ⟨_, boot_some_eq_next.2 ⟨_, _, hconstruct, load_eq_next.2 ⟨rfl, hfits m rfl, rfl⟩,
      startRun_of_not_started nofun⟩⟩

/-- Settles O42: each command leaves its stage, a run keeps it, and the stage decides what is admitted. -/
theorem oneLoadThenOneRun : Obligations.OneLoadThenOneRun := by
  unfold Obligations.OneLoadThenOneRun
  refine ⟨fun s t m n hload => ?afterLoad, fun s t u k n hrun hreaches => ?afterRun,
    fun io ds ins outs s hconstruct => ?afterConstruct,
    fun io ds ins outs image hio hle hds hfits => ?wholeLife⟩
  case afterLoad =>
    obtain ⟨-, -, rfl⟩ := load_eq_next.1 hload
    exact ⟨load_of_loaded rfl _ _ _ _, step_of_not_started nofun, startRun_of_not_started nofun⟩
  case afterRun =>
    obtain ⟨-, rfl⟩ := startRun_eq_next.1 hrun
    have hstage : u.stage = .started := (reaches_sameFixed hreaches).stage
    exact ⟨startRun_of_started hstage, load_of_started hstage _ _ _ _⟩
  case afterConstruct =>
    obtain ⟨-, rfl⟩ := construct_eq_next.1 hconstruct
    exact ⟨step_of_not_started nofun, startRun_of_not_started nofun, rfl⟩
  case wholeLife =>
    refine exists_boot_next ⟨hio, hle, hds⟩ ins outs fun m hm => ?_
    obtain ⟨hdata, hcode⟩ := hfits m hm
    have hlength : m.data.length ≤ ds.toNat - io.toNat := by omega
    exact ⟨hlength, hcode⟩

end Sys2Proof.Machine

/-! SUPPORT. The symbol tables (spec R34): execution carries them through and reads them nowhere. -/

namespace Sys2Proof.Machine

/-- `s` with other symbol tables. -/
def State.withTables (s : State) (p q : SymbolTable) : State :=
  { s with codeSymbols := p, dataSymbols := q }

/-- The same outcome, a next state with other symbol tables. -/
def outcomeWithTables (p q : SymbolTable) :
    Host.Outcome State Fault Refusal → Host.Outcome State Fault Refusal
  | .next t => .next (t.withTables p q)
  | .fault r => .fault r
  | .refused r => .refused r

/-- The same answer of the source selector, its state with other symbol tables. -/
def Source.withTables (p q : SymbolTable) : Source → Source
  | .value v s => .value v (s.withTables p q)
  | .failed k s => .failed k (s.withTables p q)
  | .stuck a => .stuck a

/-! What the selectors look at does not hang on the tables. -/

@[simp] theorem State.withTables_ioSize (s : State) (p q : SymbolTable) :
    (s.withTables p q).ioSize = s.ioSize := rfl
@[simp] theorem State.withTables_inAnswer (s : State) (p q : SymbolTable) (a : Nat) :
    (s.withTables p q).inAnswer a = s.inAnswer a := rfl
@[simp] theorem State.withTables_outAnswer (s : State) (p q : SymbolTable) (v : Word) (b : Nat) :
    (s.withTables p q).outAnswer v b = s.outAnswer v b := rfl
@[simp] theorem State.withTables_readData (s : State) (p q : SymbolTable) (a : Nat) :
    (s.withTables p q).readData a = s.readData a := rfl

theorem sourceSelect_withTables (s : State) (p q : SymbolTable) (a : Nat) :
    sourceSelect (s.withTables p q) a = (sourceSelect s a).withTables p q := by
  rw [sourceSelect, sourceSelect, State.withTables_ioSize, State.withTables_inAnswer,
    State.withTables_readData]
  split
  · rcases inResponse (s.inAnswer a) with _ | _ | _ <;> rfl
  · cases s.readData a <;> rfl

theorem outputPath_withTables (s : State) (p q : SymbolTable) (v : Word) (eb : Nat) :
    outputPath (s.withTables p q) v eb = outcomeWithTables p q (outputPath s v eb) := by
  rw [outputPath, outputPath, State.withTables_outAnswer]
  rcases outResponse (s.outAnswer v eb) with _ | _ | _ | _ <;> rfl

theorem memoryPath_withTables (s : State) (p q : SymbolTable) (v : Word) (eb ec : Nat) :
    memoryPath (s.withTables p q) v eb ec = outcomeWithTables p q (memoryPath s v eb ec) := by
  rw [memoryPath, memoryPath, State.withTables_readData]
  cases s.readData eb <;> rfl

theorem destSelect_withTables (s : State) (p q : SymbolTable) (v : Word) (eb ec : Nat) :
    destSelect (s.withTables p q) v eb ec = outcomeWithTables p q (destSelect s v eb ec) := by
  rw [destSelect, destSelect, outputPath_withTables, memoryPath_withTables, State.withTables_ioSize]
  exact (apply_ite _ _ _ _).symm

theorem exec_withTables (s : State) (p q : SymbolTable) (i : Instr) :
    exec i (s.withTables p q) = outcomeWithTables p q (exec i s) := by
  obtain ⟨x, y, z⟩ := i
  have hcongr : resolveAll (s.withTables p q) x y z = resolveAll s x y z := resolveAll_congr rfl rfl x y z
  cases hres : resolveAll s x y z with
  | error k =>
    rw [exec_of_error hres, exec_of_error (hcongr.trans hres)]
    rfl
  | ok ea =>
    have hsource := sourceSelect_withTables s p q ea.a
    cases hs : sourceSelect s ea.a with
    | value v s1 =>
      rw [hs] at hsource
      rw [exec_of_value hres hs, exec_of_value (hcongr.trans hres) hsource, destSelect_withTables]
    | failed k s1 =>
      rw [hs] at hsource
      rw [exec_of_failed hres hs, exec_of_failed (hcongr.trans hres) hsource]
      rfl
    | stuck a =>
      rw [hs] at hsource
      rw [exec_of_stuck hres hs, exec_of_stuck (hcongr.trans hres) hsource]
      rfl

theorem step_withTables (s : State) (p q : SymbolTable) :
    step (s.withTables p q) = outcomeWithTables p q (step s) := by
  by_cases hstage : s.stage = .started
  · by_cases hr : s.runState = .running
    · have hruns : s.Runs := ⟨hstage, hr⟩
      rcases Nat.lt_or_ge (s.pc + 2) s.codeSize with hc | hc
      · rw [step_of_fetch hruns hc, ← exec_withTables]
        exact step_of_fetch (s := s.withTables p q) hruns hc
      · rw [step_of_fault hruns hc]
        exact step_of_fault (s := s.withTables p q) hruns hc
    · rw [step_of_ended hstage hr]
      exact step_of_ended (s := s.withTables p q) hstage hr
  · rw [step_of_not_started hstage]
    exact step_of_not_started (s := s.withTables p q) hstage

/-- Settles O32: a step with other tables is the step with those tables carried through. -/
theorem symbolTablesNeverConsulted : Obligations.SymbolTablesNeverConsulted := by
  unfold Obligations.SymbolTablesNeverConsulted
  intro s p q
  have hstep {o : Host.Outcome State Fault Refusal} (h : step s = o) :
      step (s.withTables p q) = outcomeWithTables p q o := h ▸ step_withTables s p q
  exact ⟨fun t => hstep, fun r => hstep, fun r => hstep⟩

end Sys2Proof.Machine
